-- ==== Sys2Proof/Word.lean ====
section
/-! DEFINITION. The words of the register port (spec rules R8, R9, R11, R62): a port word, a big register, a byte. All values are unsigned; bit 0 is the least significant bit (R9). -/

namespace Sys2Proof

/-- One 32-bit transfer of the register port (R63), and one word of a big register (R11). -/
abbrev Word := BitVec 32

/-- One byte of a port word, for a host that addresses bytes (R65). -/
abbrev Byte := BitVec 8

/-- A big register (R11): its 32-bit words `X.w[0] .. X.w[WORDS-1]`, least significant first. A build has `WORDS` of them
(invariant `RegsFit` of Safety.lean); the words from `WORDS` to the end of the 32-word slot are no storage (R62). -/
abbrev BigReg := List Word

end Sys2Proof
end

