-- ==== Sys2Proof/Syntax.lean ====
section
/-! DEFINITION. The ten commands (spec rule R82, opcode_table.json). Operands are implicit (R81): a command word
carries no register number, immediate, mode or size, so no constructor has a field. -/

namespace Sys2Proof

/-- One constructor per row of the opcode table. -/
inductive Instr where
  | padd
  | pdbl
  | pneg
  | peq
  | psmul
  | fadd
  | fsub
  | fmul
  | fmont
  | finv
  deriving DecidableEq, Repr

end Sys2Proof
end

