-- ==== Sys2Proof/Config.lean ====
section
/-! DEFINITION. What a build of the engine fixes (spec rules R3, R6, R7, R20, R21, R255): the curve, one entry of a
closed catalog of three, and the platform's arguments `BASE` and `IRQ_LINE`. A build never changes while the machine
runs (R20); it stands inside `State` as plain data, so that every statement about all states speaks of every build. -/

namespace Sys2Proof

/-- The curve constants (R20), with the two sizes a build adds: `WORDS` and the `CURVE_ID` its ID register shows. -/
structure CurveParams where
  p  : Nat
  a  : Nat
  b  : Nat
  gx : Nat
  gy : Nat
  n  : Nat
  /-- `WORDS`, 32-bit words per big register (R6; any `WORDS >= ceil(bitlength(p) / 32)` by R7). -/
  words   : Nat
  /-- `CURVE_ID` of the ID register (R32). -/
  curveId : BitVec 4
  deriving DecidableEq, Repr

/-- `W`, the width in bits of every big register: `32 * WORDS` (R6). -/
def CurveParams.width (c : CurveParams) : Nat := 32 * c.words

/-- The Montgomery radix `R = 2^W` (R6). -/
def CurveParams.radix (c : CurveParams) : Nat := 2 ^ c.width

/-- `CURVE_ID = 0`, NIST P-256 (R21). -/
def curveP256 : CurveParams where
  p  := 0xFFFFFFFF00000001000000000000000000000000FFFFFFFFFFFFFFFFFFFFFFFF
  a  := 0xFFFFFFFF00000001000000000000000000000000FFFFFFFFFFFFFFFFFFFFFFFC
  b  := 0x5AC635D8AA3A93E7B3EBBD55769886BC651D06B0CC53B0F63BCE3C3E27D2604B
  gx := 0x6B17D1F2E12C4247F8BCE6E563A440F277037D812DEB33A0F4A13945D898C296
  gy := 0x4FE342E2FE1A7F9B8EE7EB4A7C0F9E162BCE33576B315ECECBB6406837BF51F5
  n  := 0xFFFFFFFF00000000FFFFFFFFFFFFFFFFBCE6FAADA7179E84F3B9CAC2FC632551
  words   := 8
  curveId := 0

/-- `CURVE_ID = 1`, secp256k1 (R21). -/
def curveSecp256k1 : CurveParams where
  p  := 0xFFFFFFFFFFFFFFFFFFFFFFFFFFFFFFFFFFFFFFFFFFFFFFFFFFFFFFFEFFFFFC2F
  a  := 0x0
  b  := 0x7
  gx := 0x79BE667EF9DCBBAC55A06295CE870B07029BFCDB2DCE28D959F2815B16F81798
  gy := 0x483ADA7726A3C4655DA4FBFC0E1108A8FD17B448A68554199C47D08FFB10D4B8
  n  := 0xFFFFFFFFFFFFFFFFFFFFFFFFFFFFFFFEBAAEDCE6AF48A03BBFD25E8CD0364141
  words   := 8
  curveId := 1

/-- `CURVE_ID = 2`, NIST P-521, `p = 2^521 - 1` (R21). -/
def curveP521 : CurveParams where
  p  := 0x1FFFFFFFFFFFFFFFFFFFFFFFFFFFFFFFFFFFFFFFFFFFFFFFFFFFFFFFFFFFFFFFFFFFFFFFFFFFFFFFFFFFFFFFFFFFFFFFFFFFFFFFFFFFFFFFFFFFFFFFFFFFFFFFFFF
  a  := 0x1FFFFFFFFFFFFFFFFFFFFFFFFFFFFFFFFFFFFFFFFFFFFFFFFFFFFFFFFFFFFFFFFFFFFFFFFFFFFFFFFFFFFFFFFFFFFFFFFFFFFFFFFFFFFFFFFFFFFFFFFFFFFFFFFFC
  b  := 0x51953EB9618E1C9A1F929A21A0B68540EEA2DA725B99B315F3B8B489918EF109E156193951EC7E937B1652C0BD3BB1BF073573DF883D2C34F1EF451FD46B503F00
  gx := 0xC6858E06B70404E9CD9E3ECB662395B4429C648139053FB521F828AF606B4D3DBAA14B5E77EFE75928FE1DC127A2FFA8DE3348B3C1856A429BF97E7E31C2E5BD66
  gy := 0x11839296A789A3BC0045C8A5FB42C7D1BD998F54449579B446817AFBD17273E662C97EE72995EF42640C550B9013FAD0761353C7086A272C24088BE94769FD16650
  n  := 0x1FFFFFFFFFFFFFFFFFFFFFFFFFFFFFFFFFFFFFFFFFFFFFFFFFFFFFFFFFFFFFFFFFA51868783BF2F966B7FCC0148F709A5D03BB5C9B8899C47AEBB6FB71E91386409
  words   := 17
  curveId := 2

/-- The entries of the closed catalog (R3). -/
inductive CatalogEntry where
  | p256
  | secp256k1
  | p521
  deriving DecidableEq, Repr

/-- The constants of a catalog entry (R21). -/
def CatalogEntry.params : CatalogEntry → CurveParams
  | .p256      => curveP256
  | .secp256k1 => curveSecp256k1
  | .p521      => curveP521

/-- One build on one platform (R6): the curve, the base address of the register window (`BASE`, OPEN, decision D5) and
the interrupt input that `irq` is routed to (`IRQ_LINE`, OPEN, decision D28). `LAT` is no field: a model carries no
time (R263), so when a command completes is the order of `State.events`. -/
structure Build where
  curve   : CurveParams
  base    : Nat
  irqLine : Nat
  deriving DecidableEq, Repr

/-- Build-time configuration (R255): exactly one catalog entry must be selected; with none or with several there is no
engine. -/
def Build.select (chosen : List CatalogEntry) (base irqLine : Nat) : Option Build :=
  match chosen with
  | [e] => some { curve := e.params, base := base, irqLine := irqLine }
  | _   => none

/-- The build that `State.reset` stands for: the default curve P256 (R6, decision D36).
DESIGN CHOICE (log 2): the platform's two open arguments are 0 here. -/
def Build.default : Build := { curve := curveP256, base := 0, irqLine := 0 }

end Sys2Proof
end

