-- ==== Sys2Proof/WellFormed.lean ====
section
/-! DEFINITION. What makes a command word legal (spec rules R80, R82), a curve a curve of this engine (R7) and a build a
build (R6). -/

namespace Sys2Proof

/-- Every command is well formed: it carries no operand that could be out of its range (R81). -/
def Instr.wellFormed : Instr → Bool := fun _ => true

/-- `RSV`, bits 31:8 of a command word, "must be 0" (R80). -/
def rsvClear (v : Word) : Bool := v.extractLsb' 8 24 == 0#24

/-- Bits 7:0 are `{CLASS, FN}` of a row of R82. -/
def opAssigned (v : Word) : Bool :=
  (v.extractLsb' 4 4 == 0#4 || v.extractLsb' 4 4 == 1#4) &&
    (1 ≤ (v.extractLsb' 0 4).toNat && (v.extractLsb' 0 4).toNat ≤ 5)

/-- A legal command word (R80, R82). -/
def commandWordLegal (v : Word) : Bool := rsvClear v && opAssigned v

/-- The checks on a curve that can be run: R7 less primality. -/
def CurveParams.wellFormed (c : CurveParams) : Bool :=
  3 < c.p && c.p % 2 == 1 && c.a < c.p && c.b < c.p && c.p < c.radix && c.words ≤ 32

/-- A curve this engine's rules are stated for (R7): `p` an odd prime greater than 3, `a` and `b` in `[0, p)`,
`WORDS` large enough for `p` and small enough for a slot (R62). Every catalog curve is one (Laws/Catalog.lean). -/
structure CurveParams.Valid (c : CurveParams) : Prop where
  prime   : c.p.Prime
  checked : c.wellFormed = true

/-- `BASE` is 4096-byte aligned (R6, R60). -/
def Build.aligned (b : Build) : Bool := b.base % 4096 == 0

/-- The checks on a build that can be run. -/
def Build.wellFormed (b : Build) : Bool := b.curve.wellFormed && b.aligned

/-- A build of the generalised model (R7): a valid curve behind an aligned window. -/
structure Build.Valid (b : Build) : Prop where
  curve   : b.curve.Valid
  aligned : b.aligned = true

/-- A build of the hardware itself: one of the three catalog curves (R3). -/
def Build.InCatalog (b : Build) : Prop :=
  ∃ e : CatalogEntry, b.curve = e.params

end Sys2Proof
end

