-- ==== Sys2Proof/Decode.lean ====
section
/-! DEFINITION. The decoder of command words (spec rule R85) and the encoder (R80, R82). -/

namespace Sys2Proof

/-- Why a word is no command (R84). The engine reports one code for both. -/
inductive IllegalWord where
  /-- `v[31:8]` is not zero -/
  | reservedBitsSet
  /-- `v[7:0]` is no opcode of R82 -/
  | unassignedOpcode
  /-- not exactly four bytes: no command word at all (R80: "Every command is exactly 32 bits") -/
  | notOneWord
  deriving DecidableEq, Repr

/-- What a decoder yields (R85): one of the ten commands or `Illegal`. -/
inductive Decoded where
  | command (i : Instr)
  | illegal (why : IllegalWord)
  deriving DecidableEq, Repr

/-- The `OP` field, bits 7:0 (R80). -/
def opField (v : Word) : BitVec 8 := v.extractLsb' 0 8

/-- The `RSV` field, bits 31:8 (R80). -/
def rsvField (v : Word) : BitVec 24 := v.extractLsb' 8 24

/-- The opcode map (R82). -/
def opcodeMap (op : BitVec 8) : Option Instr :=
  if op = 0x01#8 then some .padd
  else if op = 0x02#8 then some .pdbl
  else if op = 0x03#8 then some .pneg
  else if op = 0x04#8 then some .peq
  else if op = 0x05#8 then some .psmul
  else if op = 0x11#8 then some .fadd
  else if op = 0x12#8 then some .fsub
  else if op = 0x13#8 then some .fmul
  else if op = 0x14#8 then some .fmont
  else if op = 0x15#8 then some .finv
  else none

/-- The decoder (R85): total, and without any state. -/
def decode (v : Word) : Decoded :=
  if rsvField v ≠ 0#24 then .illegal .reservedBitsSet
  else match opcodeMap (opField v) with
    | some i => .command i
    | none   => .illegal .unassignedOpcode

/-- A word from its four bytes, the lowest address first: bits 8j+7:8j are byte j (R65). -/
def wordOfBytes (b0 b1 b2 b3 : Byte) : Word := b3 ++ b2 ++ b1 ++ b0

/-- The decoder on bytes, total. -/
def decodeBytes : List Byte → Decoded
  | [b0, b1, b2, b3] => decode (wordOfBytes b0 b1 b2 b3)
  | _                => .illegal .notOneWord

/-- `CLASS`, bits 7:4: 0 = point command, 1 = field command (R80). -/
def opClass : Instr → BitVec 4
  | .padd | .pdbl | .pneg | .peq | .psmul  => 0#4
  | .fadd | .fsub | .fmul | .fmont | .finv => 1#4

/-- `FN`, bits 3:0, the function within the class (R80, R82). -/
def opFn : Instr → BitVec 4
  | .padd | .fadd   => 1#4
  | .pdbl | .fsub   => 2#4
  | .pneg | .fmul   => 3#4
  | .peq  | .fmont  => 4#4
  | .psmul | .finv  => 5#4

/-- The command word of a command: RSV = 0, then CLASS, then FN (R80). -/
def encode (i : Instr) : Word := 0#24 ++ (opClass i ++ opFn i)

/-- The bytes of a word, the lowest address first (R65). -/
def bytesOfWord (v : Word) : List Byte :=
  [v.extractLsb' 0 8, v.extractLsb' 8 8, v.extractLsb' 16 8, v.extractLsb' 24 8]

/-- The bytes of a command. -/
def encodeBytes (i : Instr) : List Byte := bytesOfWord (encode i)

/-- What the decoder reads from a word numbered as spec/opcode_table.json numbers it. A number that does not fit the one
word every command is (R80) is no command. -/
def decodeTableWord (nbits w : Nat) : Option Instr :=
  if w % 2 ^ nbits < 2 ^ 32 then
    match decodeBytes (bytesOfWord (BitVec.ofNat 32 (w % 2 ^ nbits))) with
    | .command i => some i
    | .illegal _ => none
  else none

end Sys2Proof
end

