-- ==== Sys2Proof/Machine/State.lean ====
section
/-! DEFINITION. The state of the engine (spec file 10_state.md), the reasons a step can stop, and the state after reset
(R48). Every piece of state of INVENTORY.md's list has its field here. -/

namespace Sys2Proof.Machine

/-- STATUS.ERRCODE (R220). Codes 5, 6 and 7 are "never produced", so they have no constructor. -/
inductive ErrCode where
  /-- 0: "the last command succeeded, or no command completed since reset" -/
  | none
  /-- 1: the accepted word is no command (R221) -/
  | illegal
  /-- 2: an operand the command reads is not reduced (R222) -/
  | range
  /-- 3: FINV of 0 (R223) -/
  | inv0
  /-- 4: a slope denominator was zero; unreachable (R149, R156, R185) -/
  | denom0
  deriving DecidableEq, Repr

/-- A point value (R12): the identity, or a pair of integers. -/
inductive Point where
  | identity
  | affine (x y : Nat)
  deriving DecidableEq, Repr

/-- The sequencer (R41): idle, or busy with the accepted command word. -/
inductive Seq where
  | idle
  | busy (cmd : Word)
  deriving DecidableEq, Repr

/-- The hidden state of a PSMUL in flight (R44): the accumulator, and the index, held as the number of scalar bits not
yet processed (the loop of R180 next takes bit `remaining - 1`). -/
structure SmulLoop where
  remaining : Nat
  acc       : Point
  deriving DecidableEq, Repr

/-- What happens at the engine, one at a time, in the single total order of R70 and R72. -/
inductive Event where
  /-- a host's `MemRead`: host address, size in bytes (R13) -/
  | read (addr size : Nat)
  /-- a host's `MemWrite`: host address, size in bytes, data (R13) -/
  | write (addr size : Nat) (data : Word)
  /-- the sequencer runs one hidden iteration of a PSMUL in flight (R44); no host can see it -/
  | iterate
  /-- the sequencer takes its completion step (R141) -/
  | complete
  /-- the reset input `rst` is asserted (R250) -/
  | assertReset
  /-- the reset input `rst` is released (R250) -/
  | releaseReset
  deriving DecidableEq, Repr

/-- Why the machine can stop with a fault. -/
inductive Fault where
  /-- Raised by the port (Machine/Port.lean) for an access outside the window `BASE .. BASE + 4095`: that address is no
  address of the engine (R60). Safe: the model stops where the platform sends the access elsewhere. -/
  | outsideWindow (addr : Nat)
  deriving DecidableEq, Repr

/-- What the model has no meaning for. -/
inductive Refusal where
  /-- Raised by a dispatch arm of an instruction without a meaning; no arm is left that does. Safe. -/
  | notModelled (mnemonic : String)
  /-- Raised by the port for an access of another size than 4 bytes: "a model refuses any access with a size other
  than 4 (it has no meaning)" (R63). Safe. -/
  | accessSize (size : Nat)
  deriving DecidableEq, Repr

/-- The whole state. The flags BUSY, ERR and STATUS.RINF, the words STATUS, ID, P_MOD and MONT_R2 and the output `irq`
are no storage of their own: they are computed (Machine/Flags.lean, Machine/Operands.lean) from the fields below. -/
structure State where
  /-- the build: curve constants, BASE, IRQ_LINE (R6, R20); nothing changes it -/
  build : Build
  /-- operand point P (R24) -/
  px   : BigReg
  py   : BigReg
  /-- PINF bit 0, the only bit stored (R24) -/
  pinf : Bool
  /-- operand point Q (R25) -/
  qx   : BigReg
  qy   : BigReg
  qinf : Bool
  /-- the scalar (R26) -/
  k    : BigReg
  /-- result point R (R29) -/
  rx   : BigReg
  ry   : BigReg
  rinf : Bool
  /-- the CMD readback: the last accepted word (R33) -/
  cmd  : Word
  /-- STATUS.DONE (R34) -/
  done : Bool
  /-- STATUS.EQ (R34) -/
  eq   : Bool
  /-- STATUS.OVR (R34, R229) -/
  ovr  : Bool
  /-- STATUS.WIGN (R34, R230) -/
  wign : Bool
  /-- STATUS.ERRCODE (R34, R220) -/
  errcode : ErrCode
  /-- INTCTL.IE (R35) -/
  ie   : Bool
  /-- the sequencer (R41) -/
  seq  : Seq
  /-- accumulator and index of a PSMUL in flight (R44); none when no iteration has run yet -/
  smul : Option SmulLoop
  /-- the level of the reset input `rst` (R250) -/
  rst  : Bool
  /-- the data of the last read the port answered (R13); the host's side of the port, none before the first -/
  response : Option Word
  /-- the total order of what is still to happen (R70, R72, O12); the model's own field (log 1) -/
  events : List Event
  deriving DecidableEq, Repr

/-- Every piece of state at its reset value (R48), for any build: reset changes no constant (R253). -/
def State.resetOf (b : Build) : State where
  build := b
  px := List.replicate b.curve.words 0#32
  py := List.replicate b.curve.words 0#32
  pinf := true
  qx := List.replicate b.curve.words 0#32
  qy := List.replicate b.curve.words 0#32
  qinf := true
  k := List.replicate b.curve.words 0#32
  rx := List.replicate b.curve.words 0#32
  ry := List.replicate b.curve.words 0#32
  rinf := true
  cmd := 0#32
  done := false
  eq := false
  ovr := false
  wign := false
  errcode := .none
  ie := false
  seq := .idle
  smul := none
  rst := false
  response := none
  events := []

/-- The machine right after reset (R48), `rst` released (R250): the default build, nothing scheduled. -/
def State.reset : State := State.resetOf Build.default

end Sys2Proof.Machine
end

