-- ==== Sys2Proof/Machine/Flags.lean ====
section
/-! DEFINITION. Flags (spec rules R34, R40, R47, R220): the computed flags, the STATUS word, the W1C write, `irq`. -/

namespace Sys2Proof.Machine

/-- The three bits of a code in STATUS (R220). -/
def errBits : ErrCode → BitVec 3
  | .none    => 0#3
  | .illegal => 1#3
  | .range   => 2#3
  | .inv0    => 3#3
  | .denom0  => 4#3

/-- STATUS.BUSY: "1 exactly when seq = Busy(_)" (R41). -/
def State.busy (s : State) : Bool :=
  match s.seq with
  | .idle   => false
  | .busy _ => true

/-- STATUS.ERR: `ERRCODE != 0`, no separate storage (R34). -/
def State.err (s : State) : Bool := errBits s.errcode != 0#3

/-- The STATUS word, bit 31 first (R34): reserved 31:11, ERRCODE 10:8, reserved 7, WIGN 6, OVR 5, RINF 4, EQ 3, ERR 2,
DONE 1, BUSY 0. -/
def State.statusWord (s : State) : Word :=
  0#21 ++ errBits s.errcode ++ 0#1 ++ BitVec.ofBool s.wign ++ BitVec.ofBool s.ovr ++ BitVec.ofBool s.rinf ++
    BitVec.ofBool s.eq ++ BitVec.ofBool s.err ++ BitVec.ofBool s.done ++ BitVec.ofBool s.busy

/-- A write of STATUS (R34, R68): bits 1, 5 and 6 clear what they are written 1 to; other bits are ignored. -/
def State.writeStatus (s : State) (v : Word) : State :=
  { s with
    done := s.done && !v.getLsbD 1
    ovr  := s.ovr && !v.getLsbD 5
    wign := s.wign && !v.getLsbD 6 }

/-- A register of which only bit 0 is stored reads with bits 31:1 zero (R24, R29, R35). -/
def flagWord (b : Bool) : Word := 0#31 ++ BitVec.ofBool b

/-- The interrupt output, `irq = IE AND DONE` (R47). -/
def State.irq (s : State) : Bool := s.ie && s.done

/-- Where the platform sees the output: the line it routes it to, and the level (R232). -/
def State.irqOutput (s : State) : Nat × Bool := (s.build.irqLine, s.irq)

end Sys2Proof.Machine
end

