-- ==== Sys2Proof/Machine/FieldArith.lean ====
section
/-! DEFINITION. The field functions (spec rules R100 to R108), over mathematical integers (R8). -/

namespace Sys2Proof.Machine

/-- `inRange(v) := (0 <= v < p)` (R100). -/
def inRange (p v : Nat) : Bool := decide (v < p)

/-- R101. -/
def fadd (p a b : Nat) : Nat := (a + b) % p

/-- R102: the least non-negative residue of the integer difference (R10). -/
def fsub (p a b : Nat) : Nat := (((a : Int) - (b : Int)) % (p : Int)).toNat

/-- R103. -/
def fneg (p a : Nat) : Nat := (((p : Int) - (a : Int)) % (p : Int)).toNat

/-- R104. -/
def fmul (p a b : Nat) : Nat := (a * b) % p

/-- The extended Euclidean algorithm on the remainders `r0`, `r1`, with the magnitudes `u0`, `u1` of their coefficients:
modulo `m`, `r0` is `u0 * a` and `r1` is `-(u1 * a)`, or both with the other sign when `neg` holds. It answers the inverse
when the last remainder is 1, and nothing when it is not (`a` has no inverse). -/
def euclid (m : Nat) : Nat → Nat → Nat → Nat → Nat → Bool → Option Nat
  | 0, _, _, _, _, _ => none
  | fuel + 1, r0, r1, u0, u1, neg =>
    if r1 = 0 then
      if r0 = 1 then some (if neg then (m - u0 % m) % m else u0 % m) else none
    else euclid m fuel r1 (r0 % r1) u1 (u0 + r0 / r1 * u1) (!neg)

/-- The integer `r` in `[1, m)` with `(a * r) mod m = 1`, where there is one (`invMod_eq_some_iff` in Laws/). -/
def invMod (m a : Nat) : Option Nat := euclid m (2 * (Nat.log2 m + 1) + 1) m (a % m) 0 1 true

/-- `finv` (R106): "the unique integer r in [1, p) with (a * r) mod p = 1"; none exactly where it "has no value". The
result is defined by its value alone (R107), so the Euclidean algorithm stands for every datapath. -/
def finv (p a : Nat) : Option Nat := invMod p a

/-- `Rinv` (R105): "the unique integer in [1, p) with (R * Rinv) mod p = 1", as the `W`-th power of the inverse
`(p + 1) / 2` of 2; `p` is odd (`montRinv_spec` in Laws/). -/
def montRinv (c : CurveParams) : Nat := ((c.p + 1) / 2) ^ c.width % c.p

/-- The Montgomery product (R105). -/
def fmont (c : CurveParams) (a b : Nat) : Nat := (a * b * montRinv c) % c.p

/-- MONT_R2, `R^2 mod p` (R37). -/
def montR2 (c : CurveParams) : Nat := c.radix ^ 2 % c.p

/-- NBITS, the bit length of `p` (R6). -/
def nbits (c : CurveParams) : Nat := Nat.log2 c.p + 1

/-- Word `i` of an integer (R11). -/
def wordOf (a i : Nat) : Nat := a / 2 ^ (32 * i) % 2 ^ 32

/-- `p' = (-p^-1) mod 2^32` of R108; `p` is odd, so the inverse exists. -/
def ciosFactor (p : Nat) : Nat := (2 ^ 32 - (invMod (2 ^ 32) p).getD 0) % 2 ^ 32

/-- One iteration of R108's loop. -/
def ciosStep (p a b i t : Nat) : Nat :=
  let t1 := t + wordOf a i * b
  let m := t1 % 2 ^ 32 * ciosFactor p % 2 ^ 32
  (t1 + m * p) / 2 ^ 32

/-- The first `n` iterations of R108's loop. -/
def ciosLoop (p a b : Nat) : Nat → Nat
  | 0     => 0
  | i + 1 => ciosStep p a b i (ciosLoop p a b i)

/-- The word-serial Montgomery multiplier of R108 (informative there): a datapath that conforms, as
`Obligations.WordSerialMultiplierConforms` states. No command's meaning uses it. -/
def cios (c : CurveParams) (a b : Nat) : Nat :=
  let t := ciosLoop c.p a b c.words
  if c.p ≤ t then t - c.p else t

end Sys2Proof.Machine
end

