-- ==== Sys2Proof/Machine/PointArith.lean ====
section
/-! DEFINITION. The point functions (spec rules R144, R148, R158, R180, R200). A point value is the identity by its
constructor, never by its coordinates (R205). -/

namespace Sys2Proof.Machine

/-- Both coordinates of a finite point are reduced (R142). -/
def pointInRange (p : Nat) : Point → Bool
  | .identity   => true
  | .affine x y => inRange p x && inRange p y

/-- R144. -/
def pneg (p : Nat) : Point → Point
  | .identity   => .identity
  | .affine x y => .affine x (fneg p y)

/-- The point of R158 on the tangent at `(x, y)`, from the inverse `i` of `2y`. -/
def tangentPoint (c : CurveParams) (x y i : Nat) : Point :=
  let lam := fmul c.p (fadd c.p (fmul c.p 3 (fmul c.p x x)) c.a) i
  let x' := fsub c.p (fmul c.p lam lam) (fadd c.p x x)
  .affine x' (fsub c.p (fmul c.p lam (fsub c.p x x')) y)

/-- R158. `Error(DENOM0)` where the denominator has no inverse: "must fail loudly" (R149); for a prime `p` that is
exactly a zero denominator, which R156 shows unreachable. -/
def pdbl (c : CurveParams) : Point → Except ErrCode Point
  | .identity   => .ok .identity
  | .affine x y =>
    if y = 0 then .ok .identity
    else match finv c.p (fadd c.p y y) with
      | none   => .error .denom0
      | some i => .ok (tangentPoint c x y i)

/-- The point of R148 step 4 on the chord, from the inverse `i` of `x2 - x1`. -/
def chordPoint (c : CurveParams) (x1 y1 x2 y2 i : Nat) : Point :=
  let lam := fmul c.p (fsub c.p y2 y1) i
  let x3 := fsub c.p (fsub c.p (fmul c.p lam lam) x1) x2
  .affine x3 (fsub c.p (fmul c.p lam (fsub c.p x1 x3)) y1)

/-- R148: the first case that applies decides (R146); step 3 on equal `x` whatever the `y` (R147). -/
def padd (c : CurveParams) : Point → Point → Except ErrCode Point
  | .identity, q => .ok q
  | .affine x1 y1, .identity => .ok (.affine x1 y1)
  | .affine x1 y1, .affine x2 y2 =>
    if x1 = x2 ∧ y1 = y2 then pdbl c (.affine x1 y1)
    else if x1 = x2 then .ok .identity
    else match finv c.p (fsub c.p x2 x1) with
      | none   => .error .denom0
      | some i => .ok (chordPoint c x1 y1 x2 y2 i)

/-- One iteration of R180's loop, for scalar bit `i`. -/
def psmulStep (c : CurveParams) (P : Point) (k i : Nat) (acc : Point) : Except ErrCode Point :=
  match pdbl c acc with
  | .error e => .error e
  | .ok acc2 => if k.testBit i then padd c acc2 P else .ok acc2

/-- R180's loop from an accumulator, with the scalar bits `remaining - 1` down to 0 still to process. -/
def psmulFrom (c : CurveParams) (P : Point) (k : Nat) : Nat → Point → Except ErrCode Point
  | 0, acc     => .ok acc
  | i + 1, acc =>
    match psmulStep c P k i acc with
    | .error e => .error e
    | .ok acc' => psmulFrom c P k i acc'

/-- R180: all `W` bits, most significant first, from the identity. -/
def psmul (c : CurveParams) (P : Point) (k : Nat) : Except ErrCode Point :=
  psmulFrom c P k c.width .identity

/-- R200. -/
def peq : Point → Point → Bool
  | .identity, .identity => true
  | .identity, .affine _ _ => false
  | .affine _ _, .identity => false
  | .affine x1 y1, .affine x2 y2 => x1 == x2 && y1 == y2

end Sys2Proof.Machine
end

