-- ==== Sys2Proof/Machine/Operands.lean ====
section
/-! DEFINITION. Operands: words of big registers (spec rules R11, R62, R65), the point operands (R12, R24, R25), the
operand checks (R142, R222), and the constant registers ID, P_MOD and MONT_R2 (R32, R36, R37). -/

namespace Sys2Proof.Machine

/-- `uint(X)`, the sum over `i` of `uint(X.w[i]) * 2^(32*i)` (R11). -/
def uint : BigReg → Nat
  | []      => 0
  | w :: ws => w.toNat + 2 ^ 32 * uint ws

/-- `X.w[i]` (R11); 0 past the stored words (R62). -/
def getWord (X : BigReg) (i : Nat) : Word := X.getD i 0#32

/-- `X.w[i] <- v` (R11, R68). -/
def setWord (X : BigReg) (i : Nat) (v : Word) : BigReg := X.set i v

/-- Writing the integer `v` to a big register of `n` words (R11): word `i` gets `v[32*i+31 : 32*i]`. -/
def bigOfNat : Nat → Nat → BigReg
  | 0, _     => []
  | n + 1, v => BitVec.ofNat 32 v :: bigOfNat n (v / 2 ^ 32)

/-- A big register of this build holding the integer `v` (R11). -/
def regOf (c : CurveParams) (v : Nat) : BigReg := bigOfNat c.words v

/-- `pt(P)` (R12, R24): the identity when PINF[0] = 1, whatever PX and PY hold. -/
def State.ptP (s : State) : Point := if s.pinf then .identity else .affine (uint s.px) (uint s.py)

/-- `pt(Q)` (R12, R25). -/
def State.ptQ (s : State) : Point := if s.qinf then .identity else .affine (uint s.qx) (uint s.qy)

/-- The point value R holds (R12, R29). -/
def State.ptR (s : State) : Point := if s.rinf then .identity else .affine (uint s.rx) (uint s.ry)

/-- `A = uint(PX)`, the first operand of a field command (R27). -/
def State.fieldA (s : State) : Nat := uint s.px

/-- `B = uint(QX)`, the second operand of a field command (R27). -/
def State.fieldB (s : State) : Nat := uint s.qx

/-- `checkP` (R142): a finite P has reduced coordinates; an identity's coordinates are not checked. -/
def checkP (s : State) : Except ErrCode Unit :=
  if pointInRange s.build.curve.p s.ptP then .ok () else .error .range

/-- `checkQ` (R142). -/
def checkQ (s : State) : Except ErrCode Unit :=
  if pointInRange s.build.curve.p s.ptQ then .ok () else .error .range

/-- The range check of FINV's operand (R114, R222). -/
def checkA (s : State) : Except ErrCode Unit :=
  if inRange s.build.curve.p s.fieldA then .ok () else .error .range

/-- The range check of the other field commands (R110 to R113, R222). -/
def checkAB (s : State) : Except ErrCode Unit :=
  if inRange s.build.curve.p s.fieldA && inRange s.build.curve.p s.fieldB then .ok () else .error .range

/-- ID (R32): VERSION = 1, WORDS, CURVE_ID, NBITS, from the high bits down. -/
def idWord (c : CurveParams) : Word :=
  1#4 ++ BitVec.ofNat 8 c.words ++ c.curveId ++ BitVec.ofNat 16 (nbits c)

/-- P_MOD (R36). -/
def pModReg (c : CurveParams) : BigReg := regOf c c.p

/-- MONT_R2 (R37). -/
def montR2Reg (c : CurveParams) : BigReg := regOf c (montR2 c)

end Sys2Proof.Machine
end

