-- ==== Sys2Proof/Machine/Ops.lean ====
section
/-! DEFINITION. The operations the commands and the port share: acceptance (spec rule R140), the two ways a command ends
(R14), reset (R250), and the register window (R61 to R68). The engine owns no memory (R60): its window of registers is
its only address space. -/

namespace Sys2Proof.Machine

/-! ### Commands -/

/-- What a successful command writes (R83): R, or RX alone (R30), or STATUS.EQ alone. -/
inductive Commit where
  | point (r : Point)
  | field (v : Nat)
  | equal (b : Bool)
  deriving DecidableEq, Repr

/-- `setR` (R12): an identity result has RX = RY = 0. -/
def State.setR (s : State) : Point → State
  | .identity   => { s with rinf := true, rx := regOf s.build.curve 0, ry := regOf s.build.curve 0 }
  | .affine x y => { s with rinf := false, rx := regOf s.build.curve x, ry := regOf s.build.curve y }

/-- A command's writes to R and STATUS.EQ (R83). -/
def State.apply (s : State) : Commit → State
  | .point r => s.setR r
  | .field v => { s with rx := regOf s.build.curve v }
  | .equal b => { s with eq := b }

/-- The STATUS update every completion makes, with the code it reports (R14): `seq <- Idle`, DONE set. What a PSMUL in
flight held is gone (R46). -/
def State.endCommand (s : State) (e : ErrCode) : State :=
  { s with errcode := e, done := true, seq := .idle, smul := none }

/-- `complete()` (R14): the writes take effect together with the STATUS update, in one step (R45). -/
def State.complete (s : State) (w : Commit) : State := (s.apply w).endCommand .none

/-- `raise Error(code)` (R14, R225): nothing but STATUS is written. This is all the engine does where another machine
takes an exception: there is no trap entry, nothing is saved, no vector is fetched (R233), and nothing to return from;
a host acknowledges by a write of STATUS or by the next command (R234). -/
def State.raiseError (s : State) (e : ErrCode) : State := s.endCommand e

/-- A command's end (R14), from what its pseudocode came to. -/
def State.finish (s : State) : Except ErrCode Commit → Host.Outcome State Fault Refusal
  | .ok w    => .next (s.complete w)
  | .error e => .next (s.raiseError e)

/-- Acceptance of the word `v` by an idle sequencer (R140). The word is not decoded. -/
def State.accept (s : State) (v : Word) : State :=
  { s with cmd := v, seq := .busy v, done := false, errcode := .none, smul := none }

/-- A write of CMD (R140): accepted when idle; dropped with OVR set while busy (R229). -/
def State.writeCmd (s : State) (v : Word) : State :=
  match s.seq with
  | .busy _ => { s with ovr := true }
  | .idle   => s.accept v

/-! ### PSMUL in flight -/

/-- Where the loop of R180 stands: at its start when no iteration has run. -/
def State.loopState (s : State) : SmulLoop :=
  s.smul.getD { remaining := s.build.curve.width, acc := .identity }

/-- One hidden iteration of a PSMUL in flight (R44). It needs an operand that passes `checkP`; past the last bit, or
where an iteration fails, it waits for the completion step. -/
def State.iterate (s : State) : State :=
  match s.seq with
  | .idle   => s
  | .busy v =>
    if decode v = .command .psmul ∧ pointInRange s.build.curve.p s.ptP = true then
      match s.loopState.remaining with
      | 0     => s
      | i + 1 =>
        match psmulStep s.build.curve s.ptP (uint s.k) i s.loopState.acc with
        | .error _ => s
        | .ok acc  => { s with smul := some { remaining := i, acc := acc } }
    else s

/-! ### Reset -/

/-- `rst` asserted (R250, R252): every piece of state takes its reset value, and a command in flight is abandoned. What
is the host's (its last answer, what it will do next) is no state of the engine. -/
def State.assertReset (s : State) : State :=
  { State.resetOf s.build with rst := true, response := s.response, events := s.events }

/-- `rst` released (R250): the values stay. -/
def State.releaseReset (s : State) : State := { s with rst := false }

/-! ### The register window -/

/-- The big registers, in the order of their slots (R61). -/
inductive BigName where
  | px | py | qx | qy | k | rx | ry | pMod | montR2
  deriving DecidableEq, Repr

/-- What an offset names (R61). -/
inductive Target where
  | id | cmd | status | intctl | pinf | qinf | rinf
  | big (X : BigName) (i : Nat)
  | reserved
  deriving DecidableEq, Repr

/-- The big register of a slot number (R61). -/
def bigOfSlot : Nat → BigName
  | 0 => .px
  | 1 => .py
  | 2 => .qx
  | 3 => .qy
  | 4 => .k
  | 5 => .rx
  | 6 => .ry
  | 7 => .pMod
  | _ => .montR2

/-- The address map (R61). Only offset bits 11:2 are decoded (R64); slots of 32 words run from 0x100 to 0x57F (R62). -/
def targetOf (off : Nat) : Target :=
  match off % 4096 / 4 with
  | 0 => .id
  | 1 => .cmd
  | 2 => .status
  | 3 => .intctl
  | 4 => .pinf
  | 5 => .qinf
  | 6 => .rinf
  | w => if 64 ≤ w ∧ w < 352 then .big (bigOfSlot ((w - 64) / 32)) (w % 32) else .reserved

/-- The offset of word `i` of a big register: `slot(X) + 4 * i` (R61, R62). -/
def BigName.offset (X : BigName) (i : Nat) : Nat :=
  4 * i + match X with
    | .px => 0x100
    | .py => 0x180
    | .qx => 0x200
    | .qy => 0x280
    | .k => 0x300
    | .rx => 0x380
    | .ry => 0x400
    | .pMod => 0x480
    | .montR2 => 0x500

/-- What a big register holds. -/
def State.big (s : State) : BigName → BigReg
  | .px => s.px
  | .py => s.py
  | .qx => s.qx
  | .qy => s.qy
  | .k  => s.k
  | .rx => s.rx
  | .ry => s.ry
  | .pMod   => pModReg s.build.curve
  | .montR2 => montR2Reg s.build.curve

/-- A host can write it (R68). -/
def BigName.isOperand : BigName → Bool
  | .px | .py | .qx | .qy | .k => true
  | .rx | .ry | .pMod | .montR2 => false

/-- A big operand register gets a new value; the others are read-only (R68). -/
def State.putBig (s : State) (X : BigName) (v : BigReg) : State :=
  match X with
  | .px => { s with px := v }
  | .py => { s with py := v }
  | .qx => { s with qx := v }
  | .qy => { s with qy := v }
  | .k  => { s with k := v }
  | .rx | .ry | .pMod | .montR2 => s

/-- An operand write: it takes effect when idle; while busy it is dropped and sets WIGN (R230). -/
def State.gated (s s' : State) : State := if s.busy then { s with wign := true } else s'

/-- The value a target reads as (R24, R29, R32 to R37, R62, R66). -/
def State.readTarget (s : State) : Target → Word
  | .id       => idWord s.build.curve
  | .cmd      => s.cmd
  | .status   => s.statusWord
  | .intctl   => flagWord s.ie
  | .pinf     => flagWord s.pinf
  | .qinf     => flagWord s.qinf
  | .rinf     => flagWord s.rinf
  | .big X i  => if i < s.build.curve.words then getWord (s.big X) i else 0#32
  | .reserved => 0#32

/-- The effect of a write by target (R68). -/
def State.writeTarget (s : State) (v : Word) : Target → State
  | .cmd      => s.writeCmd v
  | .status   => s.writeStatus v
  | .intctl   => { s with ie := v.getLsbD 0 }
  | .pinf     => s.gated { s with pinf := v.getLsbD 0 }
  | .qinf     => s.gated { s with qinf := v.getLsbD 0 }
  | .big X i  =>
    if X.isOperand ∧ i < s.build.curve.words then s.gated (s.putBig X (setWord (s.big X) i v)) else s
  | .id       => s
  | .rinf     => s
  | .reserved => s

/-- `MemRead(off, 4)` (R13): the value; while `rst` is asserted, 0 (R251). -/
def State.readOff (s : State) (off : Nat) : Word := if s.rst then 0#32 else s.readTarget (targetOf off)

/-- `MemWrite(off, 4, v)` (R13); ignored while `rst` is asserted (R251). -/
def State.writeOff (s : State) (off : Nat) (v : Word) : State :=
  if s.rst then s else s.writeTarget v (targetOf off)

/-- The byte at `BASE + off`: bits `8j+7 : 8j` of its word, `j` the offset's low two bits (R65). -/
def State.readByte (s : State) (off : Nat) : Byte := (s.readOff off).extractLsb' (8 * (off % 4)) 8

end Sys2Proof.Machine
end

