-- ==== Sys2Proof/Machine/FieldCommands.lean ====
section
/-! DEFINITION. The field commands (spec rules R110 to R114). -/

namespace Sys2Proof.Machine

/-- FADD (R110). -/
def execFadd (s : State) : Host.Outcome State Fault Refusal :=
  s.finish (do
    checkAB s
    return .field (fadd s.build.curve.p s.fieldA s.fieldB))

/-- FSUB (R111). -/
def execFsub (s : State) : Host.Outcome State Fault Refusal :=
  s.finish (do
    checkAB s
    return .field (fsub s.build.curve.p s.fieldA s.fieldB))

/-- FMUL (R112). -/
def execFmul (s : State) : Host.Outcome State Fault Refusal :=
  s.finish (do
    checkAB s
    return .field (fmul s.build.curve.p s.fieldA s.fieldB))

/-- FMONT (R113). -/
def execFmont (s : State) : Host.Outcome State Fault Refusal :=
  s.finish (do
    checkAB s
    return .field (fmont s.build.curve s.fieldA s.fieldB))

/-- FINV (R114): RANGE before INV0 (R224). For a prime `p` a reduced `A` has no inverse exactly when `A = 0`. -/
def execFinv (s : State) : Host.Outcome State Fault Refusal :=
  s.finish (do
    checkA s
    match finv s.build.curve.p s.fieldA with
    | none   => throw .inv0
    | some r => return .field r)

end Sys2Proof.Machine
end

