-- ==== Sys2Proof/Machine/PointCommands.lean ====
section
/-! DEFINITION. Negation, addition and doubling (spec rules R145, R150, R160), scalar multiplication (R181) and equality
(R201). No command checks that a point lies on the curve (R143). -/

namespace Sys2Proof.Machine

/-- PNEG (R145). -/
def execPneg (s : State) : Host.Outcome State Fault Refusal :=
  s.finish (do
    checkP s
    return .point (pneg s.build.curve.p s.ptP))

/-- PADD (R150): P is checked before Q. -/
def execPadd (s : State) : Host.Outcome State Fault Refusal :=
  s.finish (do
    checkP s
    checkQ s
    return .point (← padd s.build.curve s.ptP s.ptQ))

/-- PDBL (R160). -/
def execPdbl (s : State) : Host.Outcome State Fault Refusal :=
  s.finish (do
    checkP s
    return .point (← pdbl s.build.curve s.ptP))

/-- PSMUL (R181), from where the hidden iterations that have already run have brought its loop (R44); K is not
checked. -/
def execPsmul (s : State) : Host.Outcome State Fault Refusal :=
  s.finish (do
    checkP s
    return .point (← psmulFrom s.build.curve s.ptP (uint s.k) s.loopState.remaining s.loopState.acc))

/-- PEQ (R201). -/
def execPeq (s : State) : Host.Outcome State Fault Refusal :=
  s.finish (do
    checkP s
    checkQ s
    return .equal (peq s.ptP s.ptQ))

end Sys2Proof.Machine
end

