-- ==== Sys2Proof/Machine/Dispatch.lean ====
section
/-! DEFINITION. One arm per command: the rule the completion step runs (spec rule R141). -/

namespace Sys2Proof.Machine

def exec (i : Instr) (s : State) : Host.Outcome State Fault Refusal :=
  match i with
  | .padd => Sys2Proof.Machine.execPadd s
  | .pdbl => Sys2Proof.Machine.execPdbl s
  | .pneg => Sys2Proof.Machine.execPneg s
  | .peq => Sys2Proof.Machine.execPeq s
  | .psmul => Sys2Proof.Machine.execPsmul s
  | .fadd => Sys2Proof.Machine.execFadd s
  | .fsub => Sys2Proof.Machine.execFsub s
  | .fmul => Sys2Proof.Machine.execFmul s
  | .fmont => Sys2Proof.Machine.execFmont s
  | .finv => Sys2Proof.Machine.execFinv s

end Sys2Proof.Machine
end

