-- ==== Sys2Proof/Machine/Port.lean ====
section
/-! DEFINITION. The host's side of the register port (spec rules R13, R60, R63, R70): which accesses reach the engine, and
what each does. -/

namespace Sys2Proof.Machine

/-- The offset in the window of a host address (R13, R60); none outside the window. -/
def windowOffset (b : Build) (addr : Nat) : Option Nat :=
  if b.base ≤ addr ∧ addr < b.base + 4096 then some (addr - b.base) else none

/-- One host access: it must lie in the window and be 4 bytes wide (R63), and then `act` says what it does. No access
raises an error (R228). -/
def State.access (s : State) (addr size : Nat) (act : Nat → State) : Host.Outcome State Fault Refusal :=
  match windowOffset s.build addr with
  | none     => .fault (.outsideWindow addr)
  | some off => if size = 4 then .next (act off) else .refused (.accessSize size)

/-- A host read: the answer, and nothing else (R67). -/
def State.hostRead (s : State) (addr size : Nat) : Host.Outcome State Fault Refusal :=
  s.access addr size fun off => { s with response := some (s.readOff off) }

/-- A host write (R68). -/
def State.hostWrite (s : State) (addr size : Nat) (v : Word) : Host.Outcome State Fault Refusal :=
  s.access addr size fun off => s.writeOff off v

end Sys2Proof.Machine
end

