-- ==== Sys2Proof/Machine/Sequencer.lean ====
section
/-! DEFINITION. The sequencer's completion step (spec rule R141) and what each event does. -/

namespace Sys2Proof.Machine

/-- The word the sequencer completes next: that of a command in flight, unless `rst` holds the engine (R250). -/
def State.inFlight (s : State) : Option Word :=
  if s.rst then none
  else match s.seq with
    | .idle   => none
    | .busy v => some v

/-- The completion step (R141): decode, then ILLEGAL before anything else (R224), or the command's rule. It is enabled
exactly while a command is in flight; an idle engine holds all its state (R240). -/
def State.completionStep (s : State) : Host.Outcome State Fault Refusal :=
  match s.inFlight with
  | none   => .next s
  | some v =>
    match decode v with
    | .illegal _ => .next (s.raiseError .illegal)
    | .command i => exec i s

/-- What one event does (R70, R72). While `rst` is asserted the sequencer takes no step (R250). -/
def State.handle (s : State) : Event → Host.Outcome State Fault Refusal
  | .read addr size    => s.hostRead addr size
  | .write addr size v => s.hostWrite addr size v
  | .iterate           => .next (if s.rst then s else s.iterate)
  | .complete          => s.completionStep
  | .assertReset       => .next s.assertReset
  | .releaseReset      => .next s.releaseReset

/-- A command word loaded as the one in flight, and the sequencer next in the order: what a CMD write that is accepted
leaves (R140), with the completion step scheduled first and `rst` released. -/
def State.loadCommand (s : State) (v : Word) : State :=
  { s.accept v with rst := false, events := .complete :: s.events }

end Sys2Proof.Machine
end

