-- ==== Sys2Proof/Machine/Step.lean ====
section
/-! DEFINITION. One step: the next event of the total order (spec rules R70, R72). When nothing else is left to happen,
the sequencer's completion step does: every accepted command completes (R226). -/

namespace Sys2Proof.Machine

def step (s : State) : Host.Outcome State Fault Refusal :=
  match s.events with
  | []      => s.completionStep
  | e :: es => State.handle { s with events := es } e

/-- `s` with the word of an opcode-table row as the command in flight, completed by the very next step (log 5). -/
def State.withFetchWord (s : State) (nbits w : Nat) : State :=
  s.loadCommand (BitVec.ofNat 32 (w % 2 ^ nbits))

end Sys2Proof.Machine
end

