-- ==== Sys2Proof/Machine/HostProgram.lean ====
section
/-! DEFINITION. Host programs (spec rules R86, R87): a program is the list of port transactions its operations expand to.
What a host does between port accesses is not modelled (R87). -/

namespace Sys2Proof.Machine

/-- One operation of the syntax of R86. -/
inductive HostOp where
  /-- `WR <reg>, <v32>`, at the register's offset -/
  | wr (off : Nat) (v : Word)
  /-- `RD <reg>` -/
  | rd (off : Nat)
  /-- `WRB <big>, <v>` -/
  | wrb (X : BigName) (v : Nat)
  /-- `RDB <big>` -/
  | rdb (X : BigName)
  /-- `CMD <mnemonic>` -/
  | cmd (i : Instr)
  /-- `WAIT`, in a run where `polls` reads of STATUS come before the completion: that number depends on `LAT`, which is
  open (R263) -/
  | wait (polls : Nat)
  /-- `ACK` -/
  | ack
  | ldp (x y : Nat)
  | ldpo
  | ldq (x y : Nat)
  | ldqo
  | ldk (k : Nat)
  | lda (a : Nat)
  | ldb (b : Nat)
  deriving DecidableEq, Repr

/-- `MemWrite(off, 4, v)` (R13). -/
def writeEvent (b : Build) (off : Nat) (v : Word) : Event := .write (b.base + off) 4 v

/-- `MemRead(off, 4)` (R13). -/
def readEvent (b : Build) (off : Nat) : Event := .read (b.base + off) 4

/-- `WRB` (R86): words 0 to WORDS-1, word 0 first. -/
def writeBigEvents (b : Build) (X : BigName) (v : Nat) : List Event :=
  (List.range b.curve.words).map fun i => writeEvent b (X.offset i) (BitVec.ofNat 32 (wordOf v i))

/-- `RDB` (R86). -/
def readBigEvents (b : Build) (X : BigName) : List Event :=
  (List.range b.curve.words).map fun i => readEvent b (X.offset i)

/-- The transactions an operation expands to (R86). -/
def expandOp (b : Build) : HostOp → List Event
  | .wr off v   => [writeEvent b off v]
  | .rd off     => [readEvent b off]
  | .wrb X v    => writeBigEvents b X v
  | .rdb X      => readBigEvents b X
  | .cmd i      => [writeEvent b 0x004 (encode i)]
  | .wait polls => List.replicate polls (readEvent b 0x008) ++ [.complete, readEvent b 0x008]
  | .ack        => [writeEvent b 0x008 0x00000062#32]
  | .ldp x y    => writeBigEvents b .px x ++ writeBigEvents b .py y ++ [writeEvent b 0x010 0#32]
  | .ldpo       => [writeEvent b 0x010 1#32]
  | .ldq x y    => writeBigEvents b .qx x ++ writeBigEvents b .qy y ++ [writeEvent b 0x014 0#32]
  | .ldqo       => [writeEvent b 0x014 1#32]
  | .ldk k      => writeBigEvents b .k k
  | .lda a      => writeBigEvents b .px a
  | .ldb v      => writeBigEvents b .qx v

/-- The transactions of a host program (R86). -/
def expandProgram (b : Build) (ops : List HostOp) : List Event := ops.flatMap (expandOp b)

end Sys2Proof.Machine
end

