-- ==== Sys2Proof/Safety.lean ====
section
/-! DEFINITION. What a safe state and a safe run are: the invariant of the whole engine, the accesses that have a meaning,
and the points of a curve. Claims are stated in these terms. -/

namespace Sys2Proof.Machine

/-- Every big register has the build's `WORDS` words (R6, R11). -/
structure RegsFit (s : State) : Prop where
  px : s.px.length = s.build.curve.words
  py : s.py.length = s.build.curve.words
  qx : s.qx.length = s.build.curve.words
  qy : s.qy.length = s.build.curve.words
  k  : s.k.length = s.build.curve.words
  rx : s.rx.length = s.build.curve.words
  ry : s.ry.length = s.build.curve.words

/-- What a PSMUL in flight holds is a stage of R180's loop: finishing from it gives what the whole loop gives. -/
structure LoopOk (s : State) (l : SmulLoop) : Prop where
  command  : ∃ v, s.seq = .busy v ∧ decode v = .command .psmul
  operand  : pointInRange s.build.curve.p s.ptP = true
  stage    : l.remaining < s.build.curve.width
  reduced  : pointInRange s.build.curve.p l.acc = true
  sameEnd  : psmulFrom s.build.curve s.ptP (uint s.k) l.remaining l.acc = psmul s.build.curve s.ptP (uint s.k)

/-- The reset state of this build with `rst` still asserted (R250). -/
def State.heldInReset (s : State) : State :=
  { State.resetOf s.build with rst := true, response := s.response, events := s.events }

/-- The invariant of the engine: the build is one of R7; every register has its width; R is reduced (R115, R206);
DENOM0 never occurs (R185); while a command is in flight CMD shows it and no completion is reported (R260); the hidden
loop is a stage of R180; and `rst` holds the reset values (R250). -/
structure Inv (s : State) : Prop where
  build    : s.build.Valid
  regs     : RegsFit s
  rxReduced : uint s.rx < s.build.curve.p
  ryReduced : uint s.ry < s.build.curve.p
  noDenom0 : s.errcode ≠ .denom0
  inFlight : ∀ v, s.seq = .busy v → s.cmd = v ∧ s.done = false ∧ s.errcode = .none
  loop     : ∀ l, s.smul = some l → LoopOk s l
  reset    : s.rst = true → s = s.heldInReset

/-- The port gives the event a meaning: an access of 4 bytes inside the window (R60, R63). -/
def Event.meaningful (b : Build) : Event → Bool
  | .read addr size    => (windowOffset b addr).isSome && size == 4
  | .write addr size _ => (windowOffset b addr).isSome && size == 4
  | .iterate | .complete | .assertReset | .releaseReset => true

/-- The event is no reset. -/
def Event.noReset : Event → Bool
  | .assertReset => false
  | .read _ _ | .write _ _ _ | .iterate | .complete | .releaseReset => true

/-- A point of the curve `y^2 = x^3 + a*x + b'` (R17; R152 for another `b'` than the build's `b`), reduced. -/
def onCurve (c : CurveParams) (b' : Nat) : Point → Prop
  | .identity   => True
  | .affine x y => x < c.p ∧ y < c.p ∧ y ^ 2 % c.p = (x ^ 3 + c.a * x + b') % c.p

/-- The curve with `b'` is non-singular (R184): `4a^3 + 27b'^2` is not 0 modulo `p`. -/
def nonSingular (c : CurveParams) (b' : Nat) : Prop := (4 * c.a ^ 3 + 27 * b' ^ 2) % c.p ≠ 0

/-- `P` added to itself `k` times with `padd`, from the identity (R187). -/
def repeatedAdd (c : CurveParams) (P : Point) : Nat → Except ErrCode Point
  | 0     => .ok .identity
  | k + 1 =>
    match repeatedAdd c P k with
    | .error e => .error e
    | .ok acc  => padd c acc P

/-- `(x3, y3)` is reduced and is what R146 step 4 gives for two finite points, the formulas read modulo `p`. -/
def ChordSum (p x1 y1 x2 y2 x3 y3 : Nat) : Prop :=
  x3 < p ∧ y3 < p ∧ ∃ lam : Int, lam * ((x2 : Int) - x1) ≡ (y2 : Int) - y1 [ZMOD p] ∧
    (x3 : Int) ≡ lam ^ 2 - x1 - x2 [ZMOD p] ∧ (y3 : Int) ≡ lam * ((x1 : Int) - x3) - y1 [ZMOD p]

/-- `(x3, y3)` is reduced and is what R154 gives for doubling a finite point, the formulas read modulo `p`. -/
def TangentDouble (p a x y x3 y3 : Nat) : Prop :=
  x3 < p ∧ y3 < p ∧ ∃ lam : Int, lam * (2 * (y : Int)) ≡ 3 * (x : Int) ^ 2 + a [ZMOD p] ∧
    (x3 : Int) ≡ lam ^ 2 - 2 * x [ZMOD p] ∧ (y3 : Int) ≡ lam * ((x : Int) - x3) - y [ZMOD p]

/-- `R` is the double of `P` (R154, R155). -/
def IsDouble (c : CurveParams) : Point → Point → Prop
  | .identity, R => R = .identity
  | .affine x y, R =>
    (y = 0 ∧ R = .identity) ∨ (y ≠ 0 ∧ ∃ x3 y3, R = .affine x3 y3 ∧ TangentDouble c.p c.a x y x3 y3)

/-- `R` is the sum of `P` and `Q`, by the first of R146's four steps that applies, step 3 as R147 reads it. -/
def IsSum (c : CurveParams) : Point → Point → Point → Prop
  | .identity, Q, R => R = Q
  | .affine x1 y1, .identity, R => R = .affine x1 y1
  | .affine x1 y1, .affine x2 y2, R =>
    (x1 = x2 ∧ y1 = y2 ∧ IsDouble c (.affine x1 y1) R) ∨ (x1 = x2 ∧ y1 ≠ y2 ∧ R = .identity) ∨
      (x1 ≠ x2 ∧ ∃ x3 y3, R = .affine x3 y3 ∧ ChordSum c.p x1 y1 x2 y2 x3 y3)

/-- `R` is the accumulator of R180's loop for the scalar `k` once the first `m` of its `W` bits, most significant first,
are processed: each bit doubles it, and adds `P` when the bit is 1. -/
def ScalarLoop (c : CurveParams) (P : Point) (k : Nat) : Nat → Point → Prop
  | 0, R     => R = .identity
  | m + 1, R => ∃ acc dbl, ScalarLoop c P k m acc ∧ IsDouble c acc dbl ∧
      if k.testBit (c.width - 1 - m) then IsSum c dbl P R else R = dbl

/-- The operands a command checks are reduced (the last column of R83's table). -/
def operandsReduced (i : Instr) (s : State) : Bool :=
  match i with
  | .padd | .peq => pointInRange s.build.curve.p s.ptP && pointInRange s.build.curve.p s.ptQ
  | .pdbl | .pneg | .psmul => pointInRange s.build.curve.p s.ptP
  | .fadd | .fsub | .fmul | .fmont => inRange s.build.curve.p s.fieldA && inRange s.build.curve.p s.fieldB
  | .finv => inRange s.build.curve.p s.fieldA

/-- Two states agree on the registers a command reads (R83, second column), on the build, and on the loop of a PSMUL in
flight. -/
def agreeOnOperands (i : Instr) (s s' : State) : Prop :=
  s.build = s'.build ∧
    match i with
    | .padd | .peq => s.px = s'.px ∧ s.py = s'.py ∧ s.pinf = s'.pinf ∧ s.qx = s'.qx ∧ s.qy = s'.qy ∧ s.qinf = s'.qinf
    | .pdbl | .pneg => s.px = s'.px ∧ s.py = s'.py ∧ s.pinf = s'.pinf
    | .psmul => s.px = s'.px ∧ s.py = s'.py ∧ s.pinf = s'.pinf ∧ s.k = s'.k ∧ s.smul = s'.smul
    | .fadd | .fsub | .fmul | .fmont => s.px = s'.px ∧ s.qx = s'.qx
    | .finv => s.px = s'.px

/-- Two states agree on what commands write: R, STATUS.EQ, ERRCODE and DONE (R83). -/
def agreeOnResults (s s' : State) : Prop :=
  s.rx = s'.rx ∧ s.ry = s'.ry ∧ s.rinf = s'.rinf ∧ s.eq = s'.eq ∧ s.errcode = s'.errcode ∧ s.done = s'.done

/-- The offset lies in one of R61's registers: STATUS. -/
def inStatus (off : Nat) : Prop := off % 4096 / 4 = 2

/-- The offset lies in RINF. -/
def inRinf (off : Nat) : Prop := off % 4096 / 4 = 6

/-- The offset lies in the slot of RX. -/
def inRx (off : Nat) : Prop := 0x380 ≤ off % 4096 ∧ off % 4096 < 0x400

/-- The offset lies in the slot of RY. -/
def inRy (off : Nat) : Prop := 0x400 ≤ off % 4096 ∧ off % 4096 < 0x480

/-- The state with `P` copied to `Q`. -/
def State.copyPtoQ (s : State) : State := { s with qx := s.px, qy := s.py, qinf := s.pinf }

/-- The state with another order of events. -/
def State.withEvents (s : State) (es : List Event) : State := { s with events := es }

end Sys2Proof.Machine
end

