-- ==== Sys2Proof/Certificates/Slice0/Obligations.lean ====
section
/-! DEFINITION. The statements for the provers. Each docstring names the rule of spec/ it formalises. `A` and `B` are the
integers in PX and QX (R27); a state's `ptP`, `ptQ`, `ptR` are its three point values (R12). A host access at offset
`off` stands in the order of events as the access at address `BASE + off` (R13). -/

open Sys2Proof Sys2Proof.Machine

/-! ### Encoding -/

/-- R82, the map's ten words: each decodes to its command, from the word and from its four bytes (R65). -/
def Obligations.TableWordsDecode : Prop :=
  decode 0x00000001#32 = .command .padd ∧ decode 0x00000002#32 = .command .pdbl ∧
  decode 0x00000003#32 = .command .pneg ∧ decode 0x00000004#32 = .command .peq ∧
  decode 0x00000005#32 = .command .psmul ∧ decode 0x00000011#32 = .command .fadd ∧
  decode 0x00000012#32 = .command .fsub ∧ decode 0x00000013#32 = .command .fmul ∧
  decode 0x00000014#32 = .command .fmont ∧ decode 0x00000015#32 = .command .finv ∧
  decodeBytes [0x15#8, 0x00#8, 0x00#8, 0x00#8] = .command .finv

/-- R82: "A command word v selects a command exactly when v equals the match value". For every row of the table and every
32-bit word; and decoding the bytes of a command gives it back. -/
def Obligations.WordSelectsCommandExactlyOnMatch : Prop :=
  (∀ row ∈ [(0x00000001#32, Instr.padd), (0x00000002#32, .pdbl), (0x00000003#32, .pneg), (0x00000004#32, .peq),
      (0x00000005#32, .psmul), (0x00000011#32, .fadd), (0x00000012#32, .fsub), (0x00000013#32, .fmul),
      (0x00000014#32, .fmont), (0x00000015#32, .finv)],
    ∀ v : Word, decode v = .command row.2 ↔ v = row.1) ∧
  (∀ i : Instr, ∀ v : Word, decode v = .command i ↔ v = encode i) ∧
  (∀ i : Instr, decodeBytes (encodeBytes i) = .command i)

/-- R84 and R221: exactly the listed words are illegal, and an accepted illegal word completes with ILLEGAL and changes
nothing else. -/
def Obligations.IllegalWordsCompleteWithIllegal : Prop :=
  (∀ v : Word, (∃ why, decode v = .illegal why) ↔
    (v.toNat / 2 ^ 8 ≠ 0 ∨ v.toNat % 2 ^ 8 = 0 ∨ (0x06 ≤ v.toNat % 2 ^ 8 ∧ v.toNat % 2 ^ 8 ≤ 0x10) ∨
      0x16 ≤ v.toNat % 2 ^ 8)) ∧
  (∀ (s : State) (v : Word) (why : IllegalWord), s.rst = false → s.seq = .busy v → decode v = .illegal why →
    s.completionStep = .next { s with errcode := .illegal, done := true, seq := .idle, smul := none })

/-! ### The step -/

/-- R141: a step that is the sequencer's runs the rule of the command the word in flight decodes to; it is the
sequencer's when its event is next, or when no event is left (log 1). -/
def Obligations.StepRunsTheDecodedCommand : Prop :=
  ∀ (s : State) (v : Word) (i : Instr), s.rst = false → s.seq = .busy v → decode v = .command i →
    (s.events = [] → step s = exec i s) ∧
    (∀ es, s.events = .complete :: es → step s = exec i (s.withEvents es))

/-- The model's load of a command (log 5): the very next step runs the command of the word loaded. -/
def Obligations.LoadedWordRunsNext : Prop :=
  ∀ (s : State) (i : Instr),
    step (s.withFetchWord 32 (encode i).toNat) = exec i { s.accept (encode i) with rst := false }

/-- R240: "An idle engine holds all its state indefinitely." -/
def Obligations.IdleEngineHoldsItsState : Prop :=
  ∀ (s : State) (n : Nat), s.seq = .idle → s.events = [] → Host.Core.run Sys2Proof.core n s = .next s

/-! ### Registers and the window -/

/-- R11: a big register holds the sum of its words; writing an integer below `2^W` makes it hold that integer, and sets
word `i` to bits `32i+31 : 32i` of it. -/
def Obligations.BigRegisterIsSumOfItsWords : Prop :=
  (∀ X : BigReg, uint X = ∑ i ∈ Finset.range X.length, (getWord X i).toNat * 2 ^ (32 * i)) ∧
  (∀ (c : CurveParams) (v : Nat), v < 2 ^ c.width →
    uint (regOf c v) = v ∧
      ∀ i, i < c.words → getWord (regOf c v) i = (BitVec.ofNat c.width v).extractLsb' (32 * i) 32)

/-- R62: word `i` of a register is at `slot + 4i`; a word below WORDS is storage (it reads as what the register holds,
and as what a host writes to it); any other word of the slot reads 0, and a write to it is ignored and sets no flag. -/
def Obligations.BigRegisterSlots : Prop :=
  ∀ (s : State) (X : BigName) (i : Nat), s.build.curve.Valid → RegsFit s → s.rst = false → i < 32 →
    (i < s.build.curve.words → s.readOff (X.offset i) = getWord (s.big X) i) ∧
    (i < s.build.curve.words → X.isOperand = true → s.seq = .idle →
      ∀ v, (s.writeOff (X.offset i) v).readOff (X.offset i) = v) ∧
    (s.build.curve.words ≤ i → s.readOff (X.offset i) = 0#32 ∧ ∀ v, s.writeOff (X.offset i) v = s)

/-- R68 for an operand word: with the sequencer idle the step stores the word; every byte of the window outside its four
reads as before, and every register but the one written is unchanged. -/
def Obligations.OperandWriteFrame : Prop :=
  ∀ (s : State) (X : BigName) (i : Nat) (v : Word) (es : List Event),
    s.build.curve.Valid → RegsFit s → s.rst = false → s.seq = .idle → X.isOperand = true → i < s.build.curve.words →
    s.events = .write (s.build.base + X.offset i) 4 v :: es →
    ∃ t, step s = .next t ∧
      t = { s.putBig X (setWord (s.big X) i v) with events := es } ∧
      (∀ j, getWord (t.big X) j = if j = i then v else getWord (s.big X) j) ∧
      (∀ Y, Y ≠ X → t.big Y = s.big Y) ∧
      (∀ off, off % 4096 / 4 ≠ X.offset i / 4 → t.readByte off = s.readByte off)

/-- R66: "A read of a reserved offset returns 0. A write to a reserved offset is ignored." Neither changes any other
state. -/
def Obligations.ReservedOffsetsAreInert : Prop :=
  ∀ (s : State) (off : Nat) (v : Word) (es : List Event),
    ((0x01C ≤ off ∧ off ≤ 0x0FF) ∨ (0x580 ≤ off ∧ off ≤ 0xFFF)) →
    (s.events = .read (s.build.base + off) 4 :: es →
      step s = .next { s with response := some 0#32, events := es }) ∧
    (s.events = .write (s.build.base + off) 4 v :: es → step s = .next { s with events := es })

/-- R64: bits 1:0 of an offset are ignored, and no access is misaligned or faults. -/
def Obligations.OffsetLowBitsAreIgnored : Prop :=
  ∀ (s : State) (off : Nat) (v : Word) (es : List Event), off < 4096 →
    s.readOff off = s.readOff (off &&& 0xFFC) ∧ s.writeOff off v = s.writeOff (off &&& 0xFFC) v ∧
    (s.events = .read (s.build.base + off) 4 :: es → ∃ t, step s = .next t) ∧
    (s.events = .write (s.build.base + off) 4 v :: es → ∃ t, step s = .next t)

/-- R63: an access of any other size than 4 has no meaning: the model refuses it. -/
def Obligations.AccessOfAnotherSizeIsRefused : Prop :=
  ∀ (s : State) (off size : Nat) (v : Word) (es : List Event), off < 4096 → size ≠ 4 →
    (s.events = .read (s.build.base + off) size :: es → step s = .refused (.accessSize size)) ∧
    (s.events = .write (s.build.base + off) size v :: es → step s = .refused (.accessSize size))

/-- R60 and log 3: an address outside the 4096 bytes at BASE is no address of the engine; the model stops there. -/
def Obligations.AccessOutsideTheWindowFaults : Prop :=
  ∀ (s : State) (addr size : Nat) (v : Word) (es : List Event),
    (addr < s.build.base ∨ s.build.base + 4096 ≤ addr) →
    (s.events = .read addr size :: es → step s = .fault (.outsideWindow addr)) ∧
    (s.events = .write addr size v :: es → step s = .fault (.outsideWindow addr))

/-- R67: a read answers the value of what it names and changes no state; a second read right after it gives the same. -/
def Obligations.ReadsHaveNoSideEffects : Prop :=
  ∀ (s : State) (off : Nat) (es : List Event), off < 4096 →
    (s.events = .read (s.build.base + off) 4 :: es →
      step s = .next { s with response := some (s.readOff off), events := es }) ∧
    (s.events = .read (s.build.base + off) 4 :: .read (s.build.base + off) 4 :: es →
      ∃ t u, step s = .next t ∧ step t = .next u ∧ t.response = u.response ∧
        ∀ a, u.readByte a = s.readByte a)

/-- R68, the whole table: the effect of a write by target, `rst` released. `w` is the offset of the word that is
reached (R64). -/
def Obligations.WriteEffectByTarget : Prop :=
  ∀ (s : State) (off : Nat) (v : Word), s.rst = false → off < 4096 →
    let w := off / 4 * 4
    (w = 0x004 → s.seq = .idle → s.writeOff off v = s.accept v) ∧
    (w = 0x004 → s.seq ≠ .idle → s.writeOff off v = { s with ovr := true }) ∧
    (w = 0x008 → s.writeOff off v =
      { s with done := s.done && !v.getLsbD 1, ovr := s.ovr && !v.getLsbD 5, wign := s.wign && !v.getLsbD 6 }) ∧
    (w = 0x00C → s.writeOff off v = { s with ie := v.getLsbD 0 }) ∧
    (w = 0x010 → s.seq = .idle → s.writeOff off v = { s with pinf := v.getLsbD 0 }) ∧
    (w = 0x014 → s.seq = .idle → s.writeOff off v = { s with qinf := v.getLsbD 0 }) ∧
    (w = 0x010 ∨ w = 0x014 → s.seq ≠ .idle → s.writeOff off v = { s with wign := true }) ∧
    (∀ (X : BigName) (i : Nat), i < 32 → w = X.offset i → X.isOperand = true → i < s.build.curve.words →
      (s.seq = .idle → s.writeOff off v = s.putBig X (setWord (s.big X) i v)) ∧
      (s.seq ≠ .idle → s.writeOff off v = { s with wign := true })) ∧
    (∀ (X : BigName) (i : Nat), i < 32 → w = X.offset i → (X.isOperand = false ∨ s.build.curve.words ≤ i) → s.writeOff off v = s) ∧
    (w = 0x000 ∨ w = 0x018 ∨ (0x01C ≤ w ∧ w ≤ 0x0FC) ∨ 0x580 ≤ w → s.writeOff off v = s)

/-- R34: a read of STATUS gives the STATUS word, and what every field of it is; a write clears DONE, OVR and WIGN where its
bit is 1, and nothing else; the value after reset is 0x10. -/
def Obligations.StatusWordFields : Prop :=
  (∀ s : State, s.rst = false → s.readOff 0x008 = s.statusWord) ∧
  (∀ s : State,
    (s.statusWord.getLsbD 0 = true ↔ s.seq ≠ .idle) ∧
    s.statusWord.getLsbD 1 = s.done ∧
    (s.statusWord.getLsbD 2 = true ↔ s.statusWord.extractLsb' 8 3 ≠ 0#3) ∧
    s.statusWord.getLsbD 3 = s.eq ∧ s.statusWord.getLsbD 4 = s.rinf ∧ s.statusWord.getLsbD 5 = s.ovr ∧
    s.statusWord.getLsbD 6 = s.wign ∧ s.statusWord.getLsbD 7 = false ∧
    s.statusWord.extractLsb' 8 3 = (match s.errcode with
      | .none => 0#3 | .illegal => 1#3 | .range => 2#3 | .inv0 => 3#3 | .denom0 => 4#3) ∧
    (∀ i, 11 ≤ i → s.statusWord.getLsbD i = false)) ∧
  (∀ (s : State) (v : Word), s.rst = false →
    (s.writeOff 0x008 v).readOff 0x008 = s.readOff 0x008 &&& ~~~(v &&& 0x00000062#32) ∧
    (s.writeOff 0x008 v).statusWord = s.statusWord &&& ~~~(v &&& 0x00000062#32) ∧
    s.writeOff 0x008 v = { s with
      done := s.done && !v.getLsbD 1, ovr := s.ovr && !v.getLsbD 5, wign := s.wign && !v.getLsbD 6 }) ∧
  (∀ b : Build, (State.resetOf b).readOff 0x008 = 0x00000010#32)

/-- R24, R29, R35: of PINF, QINF, RINF and INTCTL only bit 0 is stored; bits 31:1 read 0 and ignore writes. -/
def Obligations.FlagRegistersStoreBitZero : Prop :=
  ∀ (s : State) (v : Word), s.rst = false →
    s.readOff 0x00C = (if s.ie then 1#32 else 0#32) ∧ s.readOff 0x010 = (if s.pinf then 1#32 else 0#32) ∧
    s.readOff 0x014 = (if s.qinf then 1#32 else 0#32) ∧ s.readOff 0x018 = (if s.rinf then 1#32 else 0#32) ∧
    (s.writeOff 0x00C v).readOff 0x00C = v &&& 1#32 ∧
    (s.seq = .idle → (s.writeOff 0x010 v).readOff 0x010 = v &&& 1#32 ∧
      (s.writeOff 0x014 v).readOff 0x014 = v &&& 1#32) ∧
    (s.writeOff 0x018 v).readOff 0x018 = s.readOff 0x018

/-- R32 and R36: ID has its four fields and P_MOD holds `p`, on every valid curve; on the three builds of the hardware ID
reads as the words R32 gives. -/
def Obligations.IdentificationAndModulus : Prop :=
  (∀ (s : State) (e : CatalogEntry), s.rst = false → s.build.curve = e.params →
    s.readOff 0x000 = (match e with
      | .p256 => 0x10800100#32 | .secp256k1 => 0x10810100#32 | .p521 => 0x11120209#32)) ∧
  (∀ s : State, s.build.curve.Valid → s.rst = false →
    uint (s.big .pMod) = s.build.curve.p ∧
    (s.readOff 0x000).extractLsb' 0 16 = BitVec.ofNat 16 (Nat.size s.build.curve.p) ∧
    (s.readOff 0x000).extractLsb' 16 4 = s.build.curve.curveId ∧
    (s.readOff 0x000).extractLsb' 20 8 = BitVec.ofNat 8 s.build.curve.words ∧
    (s.readOff 0x000).extractLsb' 28 4 = 1#4)

/-- R37 (a value the spec derives from R21 and R6): MONT_R2 holds `R^2 mod p`; on the three builds of the hardware, the
values R37 gives. -/
def Obligations.MontgomeryConstant : Prop :=
  (∀ s : State, s.build.curve.Valid → uint (s.big .montR2) = (2 ^ s.build.curve.width) ^ 2 % s.build.curve.p) ∧
  (∀ (s : State) (e : CatalogEntry), s.build.curve = e.params →
    uint (s.big .montR2) = (match e with
      | .p256 => 0x00000004FFFFFFFDFFFFFFFFFFFFFFFEFFFFFFFBFFFFFFFF0000000000000003
      | .secp256k1 => 0x000000000000000000000000000000000000000000000001000007A2000E90A1
      | .p521 => 0x400000000000))

/-- R20 and R253: "No command, write or reset changes them": the curve constants, ID, P_MOD and MONT_R2. -/
def Obligations.NoStepChangesTheConstants : Prop :=
  ∀ s t : State, step s = .next t →
    t.build = s.build ∧ t.big .pMod = s.big .pMod ∧ t.big .montR2 = s.big .montR2 ∧
    (s.rst = false → t.rst = false → t.readOff 0x000 = s.readOff 0x000)

/-! ### The command protocol -/

/-- R140: acceptance of a CMD write, in the same port step; a write while busy is dropped with OVR set. R33: a read of CMD
returns the last word accepted, whatever became of that command, and 0 after reset: no step but an acceptance and a reset
changes what CMD reads. -/
def Obligations.CommandWriteIsAcceptedOrDropped : Prop :=
  (∀ (s : State) (v : Word) (es : List Event), s.rst = false →
    s.events = .write (s.build.base + 0x004) 4 v :: es →
    (s.seq = .idle → ∃ t, step s = .next t ∧ t.readOff 0x004 = v ∧
      t = { s with cmd := v, seq := .busy v, done := false, errcode := .none, smul := none, events := es }) ∧
    (∀ u, s.seq = .busy u → ∃ t, step s = .next t ∧ t.readOff 0x004 = s.readOff 0x004 ∧
      t = { s with ovr := true, events := es })) ∧
  (∀ s : State, s.rst = false → s.readOff 0x004 = s.cmd) ∧
  (∀ b : Build, (State.resetOf b).readOff 0x004 = 0#32) ∧
  (∀ s t : State, step s = .next t → t.cmd ≠ s.cmd →
    (∃ addr v es, s.events = .write addr 4 v :: es ∧ s.build.base ≤ addr ∧ (addr - s.build.base) / 4 * 4 = 0x004 ∧
      s.rst = false ∧ s.seq = .idle ∧ t.seq = .busy v ∧ t.cmd = v) ∨
    (∃ es, s.events = .assertReset :: es ∧ t.cmd = 0#32))

/-- R229: a CMD write while busy changes neither the command in flight nor the readback and sets OVR, which stays 1 until
a W1C write of bit 5 or reset. -/
def Obligations.OverrunIsDroppedAndSticky : Prop :=
  (∀ (s : State) (u v : Word) (es : List Event), s.rst = false → s.seq = .busy u →
    s.events = .write (s.build.base + 0x004) 4 v :: es →
    ∃ t, step s = .next t ∧ t.seq = .busy u ∧ t.cmd = s.cmd ∧ t.ovr = true) ∧
  (∀ s t : State, step s = .next t → s.ovr = true → t.ovr = false →
    (∃ addr v es, s.events = .write addr 4 v :: es ∧ (addr - s.build.base) / 4 * 4 = 0x008 ∧ v.getLsbD 5 = true) ∨
    (∃ es, s.events = .assertReset :: es))

/-- R230: a write to a backed operand word, PINF or QINF while busy is dropped and sets WIGN, which stays 1 until a W1C
write of bit 6 or reset; STATUS and INTCTL writes take effect while busy; writes to read-only and reserved offsets set
nothing. -/
def Obligations.OperandWriteWhileBusyIsDroppedAndSticky : Prop :=
  (∀ (s : State) (u v : Word) (off : Nat) (es : List Event), s.rst = false → s.seq = .busy u → off < 4096 →
    s.events = .write (s.build.base + off) 4 v :: es →
    ((off / 4 * 4 = 0x010 ∨ off / 4 * 4 = 0x014 ∨
        ∃ (X : BigName) (i : Nat), i < 32 ∧ X.isOperand = true ∧ i < s.build.curve.words ∧ off / 4 * 4 = X.offset i) →
      step s = .next { s with wign := true, events := es }) ∧
    (off / 4 * 4 = 0x008 → step s = .next
      { s with done := s.done && !v.getLsbD 1, ovr := s.ovr && !v.getLsbD 5, wign := s.wign && !v.getLsbD 6, events := es }) ∧
    (off / 4 * 4 = 0x00C → step s = .next { s with ie := v.getLsbD 0, events := es }) ∧
    ((off / 4 * 4 = 0x000 ∨ off / 4 * 4 = 0x018 ∨ (0x01C ≤ off ∧ off ≤ 0x0FF) ∨ 0x580 ≤ off ∨
        ∃ (X : BigName) (i : Nat), i < 32 ∧ X.isOperand = false ∧ off / 4 * 4 = X.offset i) →
      step s = .next { s with events := es })) ∧
  (∀ s t : State, step s = .next t → s.wign = true → t.wign = false →
    (∃ addr v es, s.events = .write addr 4 v :: es ∧ (addr - s.build.base) / 4 * 4 = 0x008 ∧ v.getLsbD 6 = true) ∨
    (∃ es, s.events = .assertReset :: es))

/-- R42, R45, R31: while a command is in flight, no host access and no hidden iteration changes its word, its operands,
R, EQ or the CMD readback. -/
def Obligations.CommandInFlightIsUndisturbed : Prop :=
  ∀ (s t : State) (v : Word) (e : Event) (es : List Event), s.rst = false → s.seq = .busy v → s.events = e :: es →
    e ≠ .complete → e ≠ .assertReset → step s = .next t →
    t.seq = .busy v ∧ t.cmd = s.cmd ∧ t.px = s.px ∧ t.py = s.py ∧ t.pinf = s.pinf ∧ t.qx = s.qx ∧ t.qy = s.qy ∧
      t.qinf = s.qinf ∧ t.k = s.k ∧ t.rx = s.rx ∧ t.ry = s.ry ∧ t.rinf = s.rinf ∧ t.eq = s.eq ∧ t.rst = false

/-- R226: every accepted command completes. However the host orders its accesses (each with a meaning, none a reset), the
sequencer is idle with DONE set after at most one step more than there are events. -/
def Obligations.EveryAcceptedCommandCompletes : Prop :=
  ∀ (s : State) (v : Word), s.rst = false → s.seq = .busy v →
    (∀ e ∈ s.events, e.meaningful s.build = true ∧ e.noReset = true) →
    ∃ n t, n ≤ s.events.length + 1 ∧ Host.Core.run Sys2Proof.core n s = .next t ∧ t.seq = .idle ∧ t.done = true

/-- R43 and R44: nothing depends on how far the hidden loop of a command in flight has run: any number of iterations
before the completion step leaves the same state after it. That the loop advances by hidden iteration events is the
model's choice (log 6). -/
def Obligations.HiddenIterationsDoNotMatter : Prop :=
  ∀ (s : State) (v : Word) (n : Nat), Inv s → s.rst = false → s.seq = .busy v →
    State.completionStep (State.iterate^[n] s) = s.completionStep

/-! ### Interrupt -/

/-- R47 and R231: `irq = IE AND DONE`; every completion, successful or failed, sets DONE; a write of STATUS bit 1, the
acceptance of the next command and reset clear it; IE masks without clearing it; and no step but a completion of the
command in flight sets DONE. -/
def Obligations.InterruptFollowsCompletion : Prop :=
  (∀ s : State, s.irq = true ↔ s.ie = true ∧ s.done = true) ∧
  (∀ (s t : State) (v : Word), s.rst = false → s.seq = .busy v → s.completionStep = .next t →
    t.done = true ∧ t.irq = s.ie) ∧
  (∀ (s : State) (v : Word), s.rst = false →
    (v.getLsbD 1 = true → (s.writeOff 0x008 v).irq = false) ∧
    (s.seq = .idle → (s.writeOff 0x004 v).irq = false) ∧
    ((s.writeOff 0x00C v).done = s.done ∧ (s.writeOff 0x00C v).irq = (v.getLsbD 0 && s.done))) ∧
  (∀ s : State, s.assertReset.irq = false) ∧
  (∀ s t : State, step s = .next t → s.done = false → t.done = true →
    s.rst = false ∧ (∃ v, s.seq = .busy v) ∧ t.seq = .idle ∧ (s.events = [] ∨ ∃ es, s.events = .complete :: es))

/-! ### Reset -/

/-- R48: every piece of state after reset, on every valid curve; `State.reset` is that of the default curve, P-256 (R6). -/
def Obligations.ResetValues : Prop :=
  (∀ b : Build, b.curve.Valid →
    let s := State.resetOf b
    (∀ X, (X = .px ∨ X = .py ∨ X = .qx ∨ X = .qy ∨ X = .k ∨ X = .rx ∨ X = .ry) →
      uint (s.big X) = 0 ∧ (s.big X).length = b.curve.words) ∧
    s.readOff 0x010 = 1#32 ∧ s.readOff 0x014 = 1#32 ∧ s.readOff 0x018 = 1#32 ∧ s.readOff 0x004 = 0#32 ∧
    s.readOff 0x008 = 0x00000010#32 ∧ s.readOff 0x00C = 0#32 ∧ s.readOff 0x000 = idWord b.curve ∧
    uint (s.big .pMod) = b.curve.p ∧ uint (s.big .montR2) = montR2 b.curve ∧
    s.seq = .idle ∧ s.smul = none ∧ s.irq = false ∧ s.rst = false) ∧
  State.reset.build.curve = curveP256 ∧ State.reset = State.resetOf State.reset.build

/-- R250: while `rst` is asserted every piece of state has its reset value (whatever else happens), and it holds those
values when `rst` is released. R252: asserting it abandons a command in flight, without completion or `irq`. That reset
leaves the host's side of the port, `response` and `events`, is the model's choice (log 10). -/
def Obligations.ResetTakesAndHoldsTheResetValues : Prop :=
  (∀ (s : State) (es : List Event), s.events = .assertReset :: es →
    ∃ t, step s = .next t ∧ t.irq = false ∧ t.done = false ∧ t.seq = .idle ∧
      t = { State.resetOf s.build with rst := true, response := s.response, events := es }) ∧
  (∀ s t : State, Inv s → s.rst = true → step s = .next t →
    t = { State.resetOf s.build with rst := t.rst, response := t.response, events := t.events } ∧
    (t.rst = false → ∃ es, s.events = .releaseReset :: es))

/-- R251: while `rst` is asserted, a read of any offset returns 0 and a write is ignored and sets no flag. -/
def Obligations.PortDuringReset : Prop :=
  ∀ (s : State) (off : Nat) (v : Word) (es : List Event), s.rst = true → off < 4096 →
    (s.events = .read (s.build.base + off) 4 :: es →
      step s = .next { s with response := some 0#32, events := es }) ∧
    (s.events = .write (s.build.base + off) 4 v :: es → step s = .next { s with events := es })

/-! ### Field commands -/

/-- R110: FADD, its result, its error, and what it leaves alone. -/
def Obligations.FaddResult : Prop :=
  ∀ s : State, s.build.curve.Valid →
    let p := s.build.curve.p
    (uint s.px < p → uint s.qx < p → ∃ t, exec .fadd s = .next t ∧
      uint t.rx = (uint s.px + uint s.qx) % p ∧
      t = { s with rx := t.rx, errcode := .none, done := true, seq := .idle, smul := none }) ∧
    (p ≤ uint s.px ∨ p ≤ uint s.qx →
      exec .fadd s = .next { s with errcode := .range, done := true, seq := .idle, smul := none })

/-- R111: FSUB, the least non-negative residue of the difference (R10, R102). -/
def Obligations.FsubResult : Prop :=
  ∀ s : State, s.build.curve.Valid →
    let p := s.build.curve.p
    (uint s.px < p → uint s.qx < p → ∃ t, exec .fsub s = .next t ∧
      (uint t.rx : Int) = ((uint s.px : Int) - (uint s.qx : Int)) % (p : Int) ∧
      (uint s.px < uint s.qx → uint t.rx + uint s.qx = uint s.px + p) ∧
      t = { s with rx := t.rx, errcode := .none, done := true, seq := .idle, smul := none }) ∧
    (p ≤ uint s.px ∨ p ≤ uint s.qx →
      exec .fsub s = .next { s with errcode := .range, done := true, seq := .idle, smul := none })

/-- R112: FMUL, the ordinary modular product. -/
def Obligations.FmulResult : Prop :=
  ∀ s : State, s.build.curve.Valid →
    let p := s.build.curve.p
    (uint s.px < p → uint s.qx < p → ∃ t, exec .fmul s = .next t ∧
      uint t.rx = uint s.px * uint s.qx % p ∧
      t = { s with rx := t.rx, errcode := .none, done := true, seq := .idle, smul := none }) ∧
    (p ≤ uint s.px ∨ p ≤ uint s.qx →
      exec .fmul s = .next { s with errcode := .range, done := true, seq := .idle, smul := none })

/-- R113 with R105: FMONT, the Montgomery product: the one reduced integer whose product with `R = 2^W` is `A * B` modulo
`p`. -/
def Obligations.FmontResult : Prop :=
  ∀ s : State, s.build.curve.Valid →
    let p := s.build.curve.p
    (uint s.px < p → uint s.qx < p → ∃ t, exec .fmont s = .next t ∧
      uint t.rx < p ∧ (2 ^ s.build.curve.width * uint t.rx) % p = uint s.px * uint s.qx % p ∧
      (∀ ri, 1 ≤ ri → ri < p → (2 ^ s.build.curve.width * ri) % p = 1 →
        uint t.rx = uint s.px * uint s.qx * ri % p) ∧
      t = { s with rx := t.rx, errcode := .none, done := true, seq := .idle, smul := none }) ∧
    (p ≤ uint s.px ∨ p ≤ uint s.qx →
      exec .fmont s = .next { s with errcode := .range, done := true, seq := .idle, smul := none })

/-- R114 with R106: FINV, the one integer `r` in `[1, p)` with `(A * r) mod p = 1`; INV0 for 0; RANGE before INV0. -/
def Obligations.FinvResult : Prop :=
  ∀ s : State, s.build.curve.Valid →
    let p := s.build.curve.p
    (0 < uint s.px → uint s.px < p → ∃ t, exec .finv s = .next t ∧
      1 ≤ uint t.rx ∧ uint t.rx < p ∧ uint s.px * uint t.rx % p = 1 ∧
      (∀ r, 1 ≤ r → r < p → uint s.px * r % p = 1 → uint t.rx = r) ∧
      t = { s with rx := t.rx, errcode := .none, done := true, seq := .idle, smul := none }) ∧
    (uint s.px = 0 → exec .finv s = .next { s with errcode := .inv0, done := true, seq := .idle, smul := none }) ∧
    (p ≤ uint s.px → exec .finv s = .next { s with errcode := .range, done := true, seq := .idle, smul := none })

/-! ### Point commands -/

/-- R145 with R144: PNEG. A finite P gives `(x, (p - y) mod p)`, the identity gives itself with RX = RY = 0; RANGE when P is
finite and unreduced. -/
def Obligations.PnegResult : Prop :=
  ∀ s : State, s.build.curve.Valid →
    let p := s.build.curve.p
    (s.pinf = true → ∃ t, exec .pneg s = .next t ∧ t.rinf = true ∧ uint t.rx = 0 ∧ uint t.ry = 0 ∧
      t = { s with rx := t.rx, ry := t.ry, rinf := t.rinf, errcode := .none, done := true, seq := .idle, smul := none }) ∧
    (s.pinf = false → uint s.px < p → uint s.py < p → ∃ t, exec .pneg s = .next t ∧ t.rinf = false ∧
      uint t.rx = uint s.px ∧ uint t.ry = (p - uint s.py) % p ∧
      t = { s with rx := t.rx, ry := t.ry, rinf := t.rinf, errcode := .none, done := true, seq := .idle, smul := none }) ∧
    (s.pinf = false → p ≤ uint s.px ∨ p ≤ uint s.py →
      exec .pneg s = .next { s with errcode := .range, done := true, seq := .idle, smul := none })

/-- R150 with R146 and R147: PADD completes with the sum, by the first of the four steps that applies; an identity result
has RX = RY = 0 (R206); RANGE when a finite operand is unreduced. -/
def Obligations.PaddResult : Prop :=
  ∀ s : State, s.build.curve.Valid →
    let p := s.build.curve.p
    (pointInRange p s.ptP = true → pointInRange p s.ptQ = true → ∃ t, exec .padd s = .next t ∧
      IsSum s.build.curve s.ptP s.ptQ t.ptR ∧ pointInRange p t.ptR = true ∧
      (t.rinf = true → uint t.rx = 0 ∧ uint t.ry = 0) ∧
      t = { s with rx := t.rx, ry := t.ry, rinf := t.rinf, errcode := .none, done := true, seq := .idle, smul := none }) ∧
    ((s.pinf = false ∧ (p ≤ uint s.px ∨ p ≤ uint s.py)) ∨ (s.qinf = false ∧ (p ≤ uint s.qx ∨ p ≤ uint s.qy)) →
      exec .padd s = .next { s with errcode := .range, done := true, seq := .idle, smul := none })

/-- R160 with R154 and R155: PDBL completes with the double; the identity and a point with `y = 0` double to the identity;
RANGE when P is finite and unreduced. -/
def Obligations.PdblResult : Prop :=
  ∀ s : State, s.build.curve.Valid →
    let p := s.build.curve.p
    (pointInRange p s.ptP = true → ∃ t, exec .pdbl s = .next t ∧
      IsDouble s.build.curve s.ptP t.ptR ∧ pointInRange p t.ptR = true ∧
      (t.rinf = true ↔ s.ptP = .identity ∨ ∃ x, s.ptP = .affine x 0) ∧
      (t.rinf = true → uint t.rx = 0 ∧ uint t.ry = 0) ∧
      t = { s with rx := t.rx, ry := t.ry, rinf := t.rinf, errcode := .none, done := true, seq := .idle, smul := none }) ∧
    (s.pinf = false ∧ (p ≤ uint s.px ∨ p ≤ uint s.py) →
      exec .pdbl s = .next { s with errcode := .range, done := true, seq := .idle, smul := none })

/-- R181 with R180: PSMUL completes with the accumulator of the double-and-add loop after all `W` bits of K, wherever the
hidden loop stands; K is not checked; RANGE when P is finite and unreduced, also for K = 0. -/
def Obligations.PsmulResult : Prop :=
  ∀ s : State, Inv s →
    let p := s.build.curve.p
    (pointInRange p s.ptP = true → ∃ t, exec .psmul s = .next t ∧
      ScalarLoop s.build.curve s.ptP (uint s.k) s.build.curve.width t.ptR ∧
      psmul s.build.curve s.ptP (uint s.k) = .ok t.ptR ∧ pointInRange p t.ptR = true ∧
      (t.rinf = true → uint t.rx = 0 ∧ uint t.ry = 0) ∧
      t = { s with rx := t.rx, ry := t.ry, rinf := t.rinf, errcode := .none, done := true, seq := .idle, smul := none }) ∧
    (s.pinf = false ∧ (p ≤ uint s.px ∨ p ≤ uint s.py) →
      exec .psmul s = .next { s with errcode := .range, done := true, seq := .idle, smul := none })

/-- R201 with R200: PEQ writes STATUS.EQ alone: both the identity, or both finite with identical coordinates; on RANGE, EQ
keeps its value. -/
def Obligations.PeqResult : Prop :=
  ∀ s : State,
    let p := s.build.curve.p
    (pointInRange p s.ptP = true → pointInRange p s.ptQ = true → ∃ t, exec .peq s = .next t ∧
      (t.eq = true ↔ (s.pinf = true ∧ s.qinf = true) ∨
        (s.pinf = false ∧ s.qinf = false ∧ uint s.px = uint s.qx ∧ uint s.py = uint s.qy)) ∧
      t = { s with eq := t.eq, errcode := .none, done := true, seq := .idle, smul := none }) ∧
    ((s.pinf = false ∧ (p ≤ uint s.px ∨ p ≤ uint s.py)) ∨ (s.qinf = false ∧ (p ≤ uint s.qx ∨ p ≤ uint s.qy)) →
      exec .peq s = .next { s with errcode := .range, done := true, seq := .idle, smul := none })

/-! ### Errors -/

/-- R224: a completion reports exactly one code, the first check that fails: ILLEGAL, then RANGE, then INV0; DENOM0
never. -/
def Obligations.ErrorCodePrecedence : Prop :=
  ∀ (s t : State) (v : Word), Inv s → s.rst = false → s.seq = .busy v → s.completionStep = .next t →
    t.errcode = (match decode v with
      | .illegal _ => .illegal
      | .command i =>
        if operandsReduced i s = false then .range
        else if i = .finv ∧ uint s.px = 0 then .inv0
        else .none)

/-- R225: a failed command writes nothing but STATUS, and the engine is idle and accepts the next command. -/
def Obligations.FailedCommandWritesOnlyStatus : Prop :=
  ∀ (s t : State) (v : Word), s.rst = false → s.seq = .busy v → s.completionStep = .next t → t.errcode ≠ .none →
    t = { s with errcode := t.errcode, done := true, seq := .idle, smul := none } ∧
    (∀ off, ¬ inStatus off → t.readByte off = s.readByte off) ∧
    (∀ w es, t.events = .write (t.build.base + 0x004) 4 w :: es → ∃ u, step t = .next u ∧ u.seq = .busy w)

/-- R149, R156 and R185: the DENOM0 branches are unreachable: no command reports it, and no point function errs on reduced
operands. -/
def Obligations.ZeroDenominatorIsUnreachable : Prop :=
  (∀ (s t : State) (i : Instr), Inv s → exec i s = .next t → t.errcode ≠ .denom0) ∧
  (∀ (c : CurveParams) (P Q : Point) (k : Nat), c.Valid → pointInRange c.p P = true → pointInRange c.p Q = true →
    (∃ r, padd c P Q = .ok r ∧ pointInRange c.p r = true) ∧ (∃ r, pdbl c P = .ok r ∧ pointInRange c.p r = true) ∧
    (∃ r, psmul c P k = .ok r ∧ pointInRange c.p r = true))

/-! ### Frames -/

/-- R30, R83 and R115: FADD, FSUB, FMUL, FMONT and FINV change RX and STATUS alone, every other byte of the window reads as
before, and an RX they write is reduced. -/
def Obligations.FieldCommandFrame : Prop :=
  ∀ (s t : State) (i : Instr), (i = .fadd ∨ i = .fsub ∨ i = .fmul ∨ i = .fmont ∨ i = .finv) →
    s.build.curve.Valid → exec i s = .next t →
    t = { s with rx := t.rx, errcode := t.errcode, done := true, seq := .idle, smul := none } ∧
    (∀ off, ¬ inRx off → ¬ inStatus off → t.readByte off = s.readByte off) ∧
    (t.errcode = .none → uint t.rx < s.build.curve.p) ∧ (t.errcode ≠ .none → t.rx = s.rx)

/-- R29 and R83: PADD, PDBL, PNEG and PSMUL change R and STATUS alone, EQ unchanged, and every other byte of the window
reads as before. -/
def Obligations.PointCommandFrame : Prop :=
  ∀ (s t : State) (i : Instr), (i = .padd ∨ i = .pdbl ∨ i = .pneg ∨ i = .psmul) → exec i s = .next t →
    t = { s with rx := t.rx, ry := t.ry, rinf := t.rinf, errcode := t.errcode, done := true, seq := .idle, smul := none } ∧
    t.eq = s.eq ∧
    (∀ off, ¬ inRx off → ¬ inRy off → ¬ inRinf off → ¬ inStatus off → t.readByte off = s.readByte off) ∧
    (t.errcode ≠ .none → t.rx = s.rx ∧ t.ry = s.ry ∧ t.rinf = s.rinf)

/-- R30: PEQ changes STATUS alone, R unchanged, and every byte of the window outside STATUS reads as before. -/
def Obligations.PeqFrame : Prop :=
  ∀ s t : State, exec .peq s = .next t →
    t = { s with eq := t.eq, errcode := t.errcode, done := true, seq := .idle, smul := none } ∧
    (∀ off, ¬ inStatus off → t.readByte off = s.readByte off) ∧ (t.errcode ≠ .none → t.eq = s.eq)

/-- R83 and R46: a command's results depend on no register but those it reads (and on what R and EQ held, where it leaves
them). FINV does not read QX; the field commands read no INF flag; PDBL, PNEG and PSMUL read nothing of Q. -/
def Obligations.CommandsReadOnlyTheirOperands : Prop :=
  ∀ (i : Instr) (s s' t t' : State), agreeOnOperands i s s' →
    s.rx = s'.rx → s.ry = s'.ry → s.rinf = s'.rinf → s.eq = s'.eq →
    exec i s = .next t → exec i s' = .next t' → agreeOnResults t t'

/-! ### Laws of the point and field functions -/

/-- R159 and R157: `pdbl(P) = padd(P, P)` for every P, and PDBL leaves what PADD leaves with Q = P. -/
def Obligations.DoublingIsAddingToItself : Prop :=
  (∀ (c : CurveParams) (P : Point), pdbl c P = padd c P P) ∧
  (∀ s t u : State, exec .pdbl s = .next t → exec .padd s.copyPtoQ = .next u → agreeOnResults t u)

/-- R151: the laws of addition for reduced operands on or off the curve: identity, inverse, commutativity. -/
def Obligations.AdditionLawsForReducedPoints : Prop :=
  ∀ (c : CurveParams) (P Q : Point), c.Valid → pointInRange c.p P = true → pointInRange c.p Q = true →
    padd c P .identity = .ok P ∧ padd c .identity P = .ok P ∧ padd c P (pneg c.p P) = .ok .identity ∧
    padd c P Q = padd c Q P ∧ pneg c.p (pneg c.p P) = P

/-- R151: addition is associative for points on a non-singular curve. -/
def Obligations.AdditionIsAssociativeOnTheCurve : Prop :=
  ∀ (c : CurveParams) (b' : Nat) (P Q S : Point), c.Valid → nonSingular c b' →
    onCurve c b' P → onCurve c b' Q → onCurve c b' S →
    ∃ PQ QS R, padd c P Q = .ok PQ ∧ padd c Q S = .ok QS ∧ padd c PQ S = .ok R ∧ padd c P QS = .ok R ∧ onCurve c b' R

/-- R207: `peq` is equality of point values, and sums in either order are equal by it. -/
def Obligations.EqualityIsThatOfPointValues : Prop :=
  (∀ P Q : Point, peq P Q = true ↔ P = Q) ∧
  (∀ (c : CurveParams) (P Q R R' : Point), c.Valid → pointInRange c.p P = true → pointInRange c.p Q = true →
    padd c P Q = .ok R → padd c Q P = .ok R' → peq R R' = true)

/-- R109: the domain conversions, with `R2 = R^2 mod p`. -/
def Obligations.MontgomeryDomainIdentities : Prop :=
  ∀ (c : CurveParams) (x a b : Nat), c.Valid → x < c.p → a < c.p → b < c.p →
    fmont c x (montR2 c) = x * 2 ^ c.width % c.p ∧ fmont c x 1 = x * montRinv c % c.p ∧
    fmont c (fmont c a b) (montR2 c) = fmul c.p a b ∧ fmont c 1 1 = montRinv c ∧
    fmont c (fmont c x (montR2 c)) 1 = x

/-- R108: the word-serial multiplier conforms: on reduced operands it computes the Montgomery product. -/
def Obligations.WordSerialMultiplierConforms : Prop :=
  ∀ (c : CurveParams) (a b : Nat), c.Valid → a < c.p → b < c.p → cios c a b = fmont c a b

/-- R183: corner cases of scalar multiplication. -/
def Obligations.ScalarMultiplicationCornerCases : Prop :=
  ∀ (c : CurveParams) (P : Point) (k : Nat), c.Valid → pointInRange c.p P = true → k < 2 ^ c.width →
    psmul c P 0 = .ok .identity ∧ psmul c .identity k = .ok .identity ∧ psmul c P 1 = .ok P ∧
    psmul c P 2 = pdbl c P ∧ (∀ D, pdbl c P = .ok D → psmul c P 3 = padd c D P) ∧
    (∀ x, P = .affine x 0 → (k % 2 = 0 → psmul c P k = .ok .identity) ∧ (k % 2 = 1 → psmul c P k = .ok P))

/-- R187 and R184: for a point on a non-singular curve, also on the curve of another `b'` (R152), `psmul(P, k)` is P added
to itself `k` times. -/
def Obligations.ScalarMultiplicationIsRepeatedAddition : Prop :=
  ∀ (c : CurveParams) (b' : Nat) (P : Point) (k : Nat), c.Valid → nonSingular c b' → onCurve c b' P → k < 2 ^ c.width →
    psmul c P k = repeatedAdd c P k

/-- R21: every entry of the catalog is consistent, by the four checks the spec names: `p` is prime, `n` is prime, G
satisfies the curve equation (a reduced point of a non-singular curve), and `psmul(G, n) = O`. -/
def Obligations.CatalogIsConsistent : Prop :=
  ∀ e : CatalogEntry, e.params.Valid ∧ e.params.n.Prime ∧ nonSingular e.params e.params.b ∧
    onCurve e.params e.params.b (.affine e.params.gx e.params.gy) ∧
    psmul e.params (.affine e.params.gx e.params.gy) e.params.n = .ok .identity

/-- R183, the rows for P = G on a catalog curve: `k = n - 1`, `k = n`, `k = n + 1` and `k = 2^W - 1`. -/
def Obligations.GeneratorOrderOnTheCatalogCurves : Prop :=
  ∀ e : CatalogEntry,
    let c := e.params
    let G := Point.affine c.gx c.gy
    psmul c G (c.n - 1) = .ok (pneg c.p G) ∧ psmul c G c.n = .ok .identity ∧ psmul c G (c.n + 1) = .ok G ∧
    psmul c G (2 ^ c.width - 1) = psmul c G ((2 ^ c.width - 1) % c.n)

/-! ### Host programs -/

/-- R86: `WRB` loads a big operand register of an idle engine with the integer written, and changes nothing else. -/
def Obligations.WriteBigLoadsTheRegister : Prop :=
  ∀ (s : State) (X : BigName) (v : Nat) (es : List Event), s.build.curve.Valid → RegsFit s → s.rst = false →
    s.seq = .idle → X.isOperand = true → v < 2 ^ s.build.curve.width →
    s.events = expandOp s.build (.wrb X v) ++ es →
    ∃ t, Host.Core.run Sys2Proof.core s.build.curve.words s = .next t ∧ uint (t.big X) = v ∧
      t = { s.putBig X (t.big X) with events := es }

/-! ### The invariant -/

/-- The invariant holds after reset, on every build of R7's and so on the default one. -/
def Obligations.InvariantHoldsAtReset : Prop :=
  (∀ b : Build, b.Valid → Inv (State.resetOf b)) ∧ Inv State.reset

/-- Every step keeps the invariant: registers of their width, R reduced, DENOM0 never, no completion reported while a
command is in flight (R260), the hidden loop a stage of R180 (R44), the reset values held while `rst` is asserted. -/
def Obligations.EveryStepKeepsTheInvariant : Prop :=
  ∀ s t : State, Inv s → step s = .next t → Inv t
end

