-- ==== Sys2Proof/Laws/Arith.lean ====
section
/-! SUPPORT. One lemma per field function: what its value is (R100 to R106), as an integer below `p` and as an element of
`ZMod p`; the inverse exists exactly where R106 says. -/

namespace Sys2Proof.Machine

section Validity
variable {c : CurveParams}

theorem valid_checks (h : c.Valid) :
    3 < c.p ∧ c.p % 2 = 1 ∧ c.a < c.p ∧ c.b < c.p ∧ c.p < c.radix ∧ c.words ≤ 32 := by
  have := h.checked
  simp only [CurveParams.wellFormed, Bool.and_eq_true, decide_eq_true_eq, beq_iff_eq] at this
  tauto

theorem valid_p_gt_three (h : c.Valid) : 3 < c.p := (valid_checks h).1
theorem valid_p_odd (h : c.Valid) : c.p % 2 = 1 := (valid_checks h).2.1
theorem valid_a_lt (h : c.Valid) : c.a < c.p := (valid_checks h).2.2.1
theorem valid_p_lt_radix (h : c.Valid) : c.p < c.radix := (valid_checks h).2.2.2.2.1
theorem valid_words_le (h : c.Valid) : c.words ≤ 32 := (valid_checks h).2.2.2.2.2
theorem valid_p_pos (h : c.Valid) : 0 < c.p := by have := valid_p_gt_three h; omega

end Validity

/-! ### Values below `p` -/

section Values
variable {p : Nat} (hp : 0 < p) (a b : Nat)
include hp

theorem fadd_lt : fadd p a b < p := Nat.mod_lt _ hp
theorem fmul_lt : fmul p a b < p := Nat.mod_lt _ hp

theorem fsub_lt : fsub p a b < p := by
  have h1 := Int.emod_nonneg ((a : Int) - b) (b := p) (by omega)
  have h2 := Int.emod_lt_of_pos ((a : Int) - b) (b := p) (by omega)
  unfold fsub
  omega

theorem fneg_lt : fneg p a < p := fsub_lt hp p a

/-- R102 as an integer congruence. -/
theorem fsub_intCast : ((fsub p a b : Nat) : Int) = ((a : Int) - b) % p := by
  have h1 := Int.emod_nonneg ((a : Int) - b) (b := p) (by omega)
  unfold fsub
  omega

end Values

/-! ### Values in `ZMod p` -/

section Casts
variable (p a b : Nat)

theorem fadd_cast : ((fadd p a b : Nat) : ZMod p) = a + b := by
  unfold fadd
  rw [ZMod.natCast_mod, Nat.cast_add]

theorem fmul_cast : ((fmul p a b : Nat) : ZMod p) = a * b := by
  unfold fmul
  rw [ZMod.natCast_mod, Nat.cast_mul]

theorem fsub_cast (hp : 0 < p) : ((fsub p a b : Nat) : ZMod p) = a - b := by
  have h := congrArg (fun z : Int => (z : ZMod p)) (fsub_intCast hp a b)
  simpa using h

theorem fneg_cast (hp : 0 < p) : ((fneg p a : Nat) : ZMod p) = -a := by
  have h : fneg p a = fsub p p a := rfl
  rw [h, fsub_cast p p a hp]
  simp

end Casts

/-- Two integers below `p` are equal when they are equal in `ZMod p`. -/
theorem eq_of_cast_eq {p a b : Nat} (ha : a < p) (hb : b < p) (h : (a : ZMod p) = b) : a = b := by
  rw [ZMod.natCast_eq_natCast_iff'] at h
  rwa [Nat.mod_eq_of_lt ha, Nat.mod_eq_of_lt hb] at h

/-! ### The Euclidean algorithm -/

theorem modEq_of_eq {m a b : Int} (h : a = b) : a ≡ b [ZMOD m] := h ▸ Int.ModEq.refl a

/-- The sign of `r0`'s coefficient. -/
def signOf (neg : Bool) : Int := if neg then -1 else 1

theorem signOf_not (neg : Bool) : signOf (!neg) = -signOf neg := by cases neg <;> rfl

/-- What the algorithm keeps: both remainders are signed multiples of `a` modulo `m`, and their gcd is that of `a`
and `m`. -/
structure EuclidInv (m a r0 r1 u0 u1 : Nat) (neg : Bool) : Prop where
  left  : (signOf neg * u0 * a : Int) ≡ r0 [ZMOD m]
  right : (-signOf neg * u1 * a : Int) ≡ r1 [ZMOD m]
  gcd   : Nat.gcd r0 r1 = Nat.gcd m a
  order : r1 ≤ r0

theorem EuclidInv.next {m a r0 r1 u0 u1 : Nat} {neg : Bool} (h : EuclidInv m a r0 r1 u0 u1 neg) (h1 : r1 ≠ 0) :
    EuclidInv m a r1 (r0 % r1) u1 (u0 + r0 / r1 * u1) (!neg) where
  left := by rw [signOf_not]; exact h.right
  right := by
    have hmod : ((r0 % r1 : Nat) : Int) = r0 - (r0 / r1 : Nat) * r1 := by
      have := Nat.div_add_mod r0 r1
      push_cast
      rw [Int.emod_def]
      ring
    rw [hmod, signOf_not]
    have := h.left.sub (h.right.mul_left (r0 / r1 : Nat))
    refine Int.ModEq.trans (modEq_of_eq ?_) this
    push_cast
    ring
  gcd := by
    rw [← h.gcd, Nat.gcd_comm r1, Nat.gcd_comm r0, ← Nat.gcd_rec]
  order := (Nat.mod_lt _ (by omega)).le

/-- The product of the remainders at least halves at every step. -/
theorem euclid_halves {r0 r1 : Nat} (h1 : r1 ≠ 0) (ho : r1 ≤ r0) : 2 * (r1 * (r0 % r1)) ≤ r0 * r1 := by
  have h2 : 2 * (r0 % r1) ≤ r0 := by
    have := Nat.mod_lt r0 (by omega : r1 > 0)
    have hd := Nat.div_add_mod r0 r1
    have : 1 ≤ r0 / r1 := Nat.div_pos ho (by omega)
    have : r1 * 1 ≤ r1 * (r0 / r1) := Nat.mul_le_mul_left _ this
    omega
  calc 2 * (r1 * (r0 % r1)) = r1 * (2 * (r0 % r1)) := by ring
    _ ≤ r1 * r0 := Nat.mul_le_mul_left _ h2
    _ = r0 * r1 := Nat.mul_comm _ _

/-- Any answer of the algorithm is the inverse. -/
theorem euclid_sound {m a : Nat} (hm : 1 < m) : ∀ {fuel r0 r1 u0 u1 : Nat} {neg : Bool} {r : Nat},
    EuclidInv m a r0 r1 u0 u1 neg → euclid m fuel r0 r1 u0 u1 neg = some r → r < m ∧ a * r % m = 1 := by
  intro fuel
  induction fuel with
  | zero => intro _ _ _ _ _ _ _ h; simp [euclid] at h
  | succ fuel ih =>
    intro r0 r1 u0 u1 neg r hinv h
    rw [euclid] at h
    by_cases h1 : r1 = 0
    · rw [if_pos h1] at h
      by_cases h0 : r0 = 1
      · rw [if_pos h0] at h
        have hr : r = if neg then (m - u0 % m) % m else u0 % m := (Option.some.inj h).symm
        have hlt : r < m := by rw [hr]; split <;> exact Nat.mod_lt _ (by omega)
        refine ⟨hlt, ?_⟩
        have hcong : (r : Int) ≡ signOf neg * u0 [ZMOD m] := by
          rw [hr]
          have hm' := Nat.mod_lt u0 (by omega : m > 0)
          cases neg
          · simp only [Bool.false_eq_true, ite_false, signOf, one_mul]
            push_cast
            exact Int.mod_modEq _ _
          · simp only [ite_true, signOf]
            push_cast [Nat.cast_sub hm'.le]
            refine (Int.mod_modEq _ _).trans ?_
            have : ((m : Int) - u0 % m) ≡ 0 - u0 [ZMOD m] :=
              Int.ModEq.sub (by simp [Int.ModEq]) (Int.mod_modEq _ _)
            refine this.trans (modEq_of_eq (by ring))
        have h2 : ((a * r : Nat) : Int) ≡ ((1 : Nat) : Int) [ZMOD m] := by
          have := (hcong.mul_right (a : Int)).trans hinv.left
          rw [h0] at this
          refine Int.ModEq.trans (modEq_of_eq ?_) this
          push_cast
          ring
        have := (Int.natCast_modEq_iff.mp h2)
        rwa [Nat.ModEq, Nat.mod_eq_of_lt hm] at this
      · rw [if_neg h0] at h
        exact absurd h (by simp)
    · rw [if_neg h1] at h
      exact ih (hinv.next h1) h

/-- With enough fuel the algorithm answers wherever `a` is prime to `m`. -/
theorem euclid_complete {m a : Nat} (hg : Nat.gcd m a = 1) : ∀ {fuel r0 r1 u0 u1 : Nat} {neg : Bool},
    EuclidInv m a r0 r1 u0 u1 neg → r0 * r1 < 2 ^ fuel →
      (euclid m (fuel + 1) r0 r1 u0 u1 neg).isSome = true := by
  intro fuel
  induction fuel with
  | zero =>
    intro r0 r1 u0 u1 neg hinv hlt
    have h1 : r1 = 0 := by
      by_contra h
      have := hinv.order
      have : 1 * 1 ≤ r0 * r1 := Nat.mul_le_mul (by omega) (by omega)
      omega
    have h0 : r0 = 1 := by simpa [h1, hg] using hinv.gcd
    simp [euclid, h1, h0]
  | succ fuel ih =>
    intro r0 r1 u0 u1 neg hinv hlt
    rw [euclid]
    by_cases h1 : r1 = 0
    · have h0 : r0 = 1 := by simpa [h1, hg] using hinv.gcd
      simp [h1, h0]
    · rw [if_neg h1]
      have := euclid_halves h1 hinv.order
      exact ih (hinv.next h1) (by rw [Nat.pow_succ] at hlt; omega)

theorem euclid_start {m a : Nat} (hm : 0 < m) : EuclidInv m a m (a % m) 0 1 true where
  left := by simp [signOf, Int.ModEq]
  right := by
    simp only [signOf, ite_true, Int.neg_neg, Nat.cast_one, one_mul]
    push_cast
    exact (Int.mod_modEq _ _).symm
  gcd := by rw [Nat.gcd_comm, ← Nat.gcd_rec]
  order := (Nat.mod_lt _ hm).le

/-- R106: the inverse is the one integer below `m` with `(a * r) mod m = 1`. -/
theorem invMod_eq_some_iff {m a r : Nat} (hm : 1 < m) : invMod m a = some r ↔ r < m ∧ a * r % m = 1 := by
  have hsound : ∀ r, invMod m a = some r → r < m ∧ a * r % m = 1 :=
    fun r h => euclid_sound hm (euclid_start (by omega)) h
  refine ⟨hsound r, fun ⟨hr, har⟩ => ?_⟩
  have hg : Nat.gcd m a = 1 := by
    have hd : Nat.gcd m a ∣ a * r % m :=
      (Nat.dvd_mod_iff (Nat.gcd_dvd_left m a)).mpr (Dvd.dvd.mul_right (Nat.gcd_dvd_right m a) r)
    rw [har] at hd
    exact Nat.dvd_one.mp hd
  have hfuel : m * (a % m) < 2 ^ (2 * (Nat.log2 m + 1)) := by
    have h1 : m < 2 ^ (Nat.log2 m + 1) := Nat.lt_log2_self
    have h2 := Nat.mod_lt a (by omega : m > 0)
    calc m * (a % m) < 2 ^ (Nat.log2 m + 1) * 2 ^ (Nat.log2 m + 1) := by gcongr; omega
      _ = 2 ^ (2 * (Nat.log2 m + 1)) := by rw [← pow_add]; congr 1; ring
  obtain ⟨r', hr'⟩ := Option.isSome_iff_exists.mp (euclid_complete hg (euclid_start (by omega)) hfuel)
  obtain ⟨hlt', har'⟩ := hsound r' hr'
  have : r' = r := by
    have h : a * r' ≡ a * r [MOD m] := by rw [Nat.ModEq, har', har]
    have := Nat.ModEq.cancel_left_of_coprime hg h
    rwa [Nat.ModEq, Nat.mod_eq_of_lt hlt', Nat.mod_eq_of_lt hr] at this
  rw [← this]
  exact hr'

/-- R106: for a prime `p` the inverse exists exactly when `a mod p != 0`. -/
theorem finv_isSome_iff {p a : Nat} (hp : p.Prime) : (finv p a).isSome = true ↔ a % p ≠ 0 := by
  rw [Option.isSome_iff_exists]
  constructor
  · rintro ⟨r, hr⟩ h0
    have := ((invMod_eq_some_iff hp.one_lt).mp hr).2
    rw [Nat.mul_mod, h0] at this
    simp at this
  · intro h0
    have := Fact.mk hp
    have hne : (a : ZMod p) ≠ 0 := by
      rwa [Ne, ZMod.natCast_eq_zero_iff, Nat.dvd_iff_mod_eq_zero]
    refine ⟨((a : ZMod p)⁻¹).val, (invMod_eq_some_iff hp.one_lt).mpr ⟨ZMod.val_lt _, ?_⟩⟩
    have : ((a * ((a : ZMod p)⁻¹).val : Nat) : ZMod p) = ((1 : Nat) : ZMod p) := by
      push_cast
      rw [ZMod.natCast_zmod_val, mul_inv_cancel₀ hne]
    rw [ZMod.natCast_eq_natCast_iff'] at this
    rwa [Nat.mod_eq_of_lt hp.one_lt] at this

/-- An answer of `finv` is the inverse in `ZMod p`. -/
theorem finv_cast {p a r : Nat} (hp : p.Prime) (h : finv p a = some r) : (r : ZMod p) = (a : ZMod p)⁻¹ := by
  have := Fact.mk hp
  have har := ((invMod_eq_some_iff hp.one_lt).mp h).2
  have : ((a * r : Nat) : ZMod p) = ((1 : Nat) : ZMod p) := by
    rw [ZMod.natCast_eq_natCast_iff', har, Nat.mod_eq_of_lt hp.one_lt]
  push_cast at this
  exact eq_inv_of_mul_eq_one_right this

/-! ### The Montgomery constant -/

/-- R105: `Rinv` is reduced and inverts the radix. -/
theorem montRinv_spec {c : CurveParams} (h : c.Valid) :
    montRinv c < c.p ∧ c.radix * montRinv c % c.p = 1 := by
  have hp := valid_p_gt_three h
  refine ⟨Nat.mod_lt _ (by omega), ?_⟩
  have h2 : 2 * ((c.p + 1) / 2) ≡ 1 [MOD c.p] := by
    have := valid_p_odd h
    rw [show 2 * ((c.p + 1) / 2) = c.p + 1 by omega]
    simp [Nat.ModEq]
  have : c.radix * montRinv c ≡ 1 [MOD c.p] := by
    unfold montRinv CurveParams.radix
    calc 2 ^ c.width * (((c.p + 1) / 2) ^ c.width % c.p)
        ≡ 2 ^ c.width * ((c.p + 1) / 2) ^ c.width [MOD c.p] := (Nat.mod_modEq _ _).mul_left _
      _ = (2 * ((c.p + 1) / 2)) ^ c.width := (Nat.mul_pow _ _ _).symm
      _ ≡ 1 ^ c.width [MOD c.p] := h2.pow _
      _ = 1 := Nat.one_pow _
  rwa [Nat.ModEq, Nat.mod_eq_of_lt (by omega : 1 < c.p)] at this

theorem fmont_lt {c : CurveParams} (hp : 0 < c.p) (a b : Nat) : fmont c a b < c.p := Nat.mod_lt _ hp

end Sys2Proof.Machine
end

