-- ==== Sys2Proof/Laws/Primes.lean ====
section
/-! SUPPORT. Primes shown by Pratt certificates: each prime from the complete factorisation of its predecessor. The tables
hold the field moduli of P-256 and secp256k1 and the group orders of the three catalog curves (R21), with every prime that
their certificates rest on. -/

namespace Sys2Proof

set_option Elab.async false

/-- `b^e` modulo `m`, by the digits of `e` to the base 256; `e < 256^fuel`. -/
def powModAux (m b : Nat) : Nat → Nat → Nat
  | 0, _ => 1
  | fuel + 1, e => powModAux m b fuel (e / 256) ^ 256 * b ^ (e % 256) % m

/-- `b^e mod m`. -/
def powMod (m b e : Nat) : Nat := powModAux m b (Nat.log2 e / 8 + 1) e % m

theorem powModAux_modEq (m b : Nat) : ∀ (fuel e : Nat), e < 256 ^ fuel → powModAux m b fuel e ≡ b ^ e [MOD m]
  | 0, e, h => by
    have : e = 0 := by simpa using h
    subst this
    rfl
  | fuel + 1, e, h => by
    have he : e / 256 < 256 ^ fuel := by rw [Nat.pow_succ] at h; omega
    calc powModAux m b fuel (e / 256) ^ 256 * b ^ (e % 256) % m
        ≡ powModAux m b fuel (e / 256) ^ 256 * b ^ (e % 256) [MOD m] := Nat.mod_modEq _ _
      _ ≡ (b ^ (e / 256)) ^ 256 * b ^ (e % 256) [MOD m] := ((powModAux_modEq m b fuel _ he).pow _).mul_right _
      _ = b ^ e := by rw [← pow_mul, ← pow_add, mul_comm, Nat.div_add_mod]

theorem powMod_eq (m b e : Nat) : powMod m b e = b ^ e % m := by
  refine powModAux_modEq m b _ e (lt_of_lt_of_le (Nat.lt_log2_self (n := e)) ?_)
  rw [show (256 : Nat) = 2 ^ 8 by rfl, ← pow_mul]
  exact Nat.pow_le_pow_right (by norm_num) (by omega)

/-- All numbers of a list are prime. -/
def AllPrime (fs : List Nat) : Prop := ∀ q ∈ fs, q.Prime

theorem allPrime_nil : AllPrime [] := by simp [AllPrime]

theorem allPrime_cons {q : Nat} {fs : List Nat} (h : q.Prime) (t : AllPrime fs) : AllPrime (q :: fs) := by
  simpa [AllPrime] using And.intro h t

/-- The check of one certificate: a base `a` of order `p - 1`, whose prime factors are `fs`. -/
def prattCheck (p a : Nat) (fs : List Nat) : Bool :=
  1 < p && fs.prod == p - 1 && powMod p a (p - 1) == 1 && fs.all fun q => powMod p a ((p - 1) / q) != 1

/-- A certificate that checks shows a prime (Lucas). -/
theorem prime_of_pratt {p : Nat} (a : Nat) {fs : List Nat} (hf : AllPrime fs) (h : prattCheck p a fs = true) :
    p.Prime := by
  simp only [prattCheck, Bool.and_eq_true, decide_eq_true_eq, beq_iff_eq, List.all_eq_true, bne_iff_ne, ne_eq] at h
  obtain ⟨⟨⟨h1, hprod⟩, hone⟩, hne⟩ := h
  have cast_one : ∀ e, ((a : ZMod p) ^ e = 1 ↔ powMod p a e = 1) := by
    intro e
    have : ((a : ZMod p) ^ e = 1) ↔ ((a ^ e : Nat) : ZMod p) = ((1 : Nat) : ZMod p) := by push_cast; rfl
    rw [this, ZMod.natCast_eq_natCast_iff', powMod_eq, Nat.mod_eq_of_lt h1]
  refine lucas_primality p (a : ZMod p) ((cast_one _).mpr hone) fun q hq hd => ?_
  have hmem : q ∈ fs := by
    rw [← hprod] at hd
    obtain ⟨r, hr, hqr⟩ := (Nat.Prime.prime hq).dvd_prod_iff.mp hd
    rwa [(Nat.prime_dvd_prime_iff_eq hq (hf r hr)).mp hqr]
  exact fun hc => hne q hmem ((cast_one _).mp hc)

/-- A prime, its base, and the prime factors of its predecessor. -/
abbrev Certificate := Nat × Nat × List Nat

/-- No `d` from 2 to `n` divides `q`, `q` itself apart. -/
def noDivisor (q : Nat) : Nat → Bool
  | 0 => true
  | 1 => true
  | n + 2 => (q ≤ n + 2 || q % (n + 2) != 0) && noDivisor q (n + 1)

/-- A prime below `142^2`, by trial division. -/
def smallPrime (q : Nat) : Bool := 2 ≤ q && q < 142 * 142 && noDivisor q 141

theorem noDivisor_spec {q : Nat} : ∀ {n d : Nat}, noDivisor q n = true → 2 ≤ d → d ≤ n → d < q → ¬ d ∣ q
  | 0, d, _, h2, hn, _ => by omega
  | 1, d, _, h2, hn, _ => by omega
  | n + 2, d, h, h2, hn, hq => by
    simp only [noDivisor, Bool.and_eq_true, Bool.or_eq_true, decide_eq_true_eq, bne_iff_ne, ne_eq] at h
    by_cases hd : d = n + 2
    · subst hd
      intro hdvd
      obtain h1 | h1 := h.1
      · omega
      · exact h1 (Nat.mod_eq_zero_of_dvd hdvd)
    · exact noDivisor_spec h.2 h2 (by omega) hq

theorem smallPrime_spec {q : Nat} (h : smallPrime q = true) : q.Prime := by
  simp only [smallPrime, Bool.and_eq_true, decide_eq_true_eq] at h
  obtain ⟨⟨h2, hlt⟩, hn⟩ := h
  by_contra hnp
  have hle : q.minFac ^ 2 ≤ q := Nat.minFac_sq_le_self (by omega) hnp
  have hm := (Nat.minFac_prime (by omega : q ≠ 1)).two_le
  have hm' : q.minFac ≤ 141 := by
    by_contra hc
    have : 142 * 142 ≤ q.minFac ^ 2 := by rw [pow_two]; exact Nat.mul_le_mul (by omega) (by omega)
    omega
  exact noDivisor_spec hn hm hm' (by nlinarith) (Nat.minFac_dvd q)

/-- Every certificate holds, its factors small or certified before it. -/
def certsHold : List Certificate → List Nat → Bool
  | [], _ => true
  | (p, a, fs) :: cs, known =>
    fs.all (fun q => smallPrime q || known.contains q) && prattCheck p a fs && certsHold cs (p :: known)

theorem certsHold_spec : ∀ {cs : List Certificate} {known : List Nat}, AllPrime known → certsHold cs known = true →
    ∀ t ∈ cs, t.1.Prime
  | [], _, _, _ => by simp
  | (p, a, fs) :: cs, known, hk, h => by
    simp only [certsHold, Bool.and_eq_true, List.all_eq_true, Bool.or_eq_true, List.contains_iff_mem] at h
    obtain ⟨⟨hf, hp⟩, hcs⟩ := h
    have hprime : p.Prime := prime_of_pratt a (fun q hq => (hf q hq).elim smallPrime_spec (hk q)) hp
    intro t ht
    obtain rfl | ht := List.mem_cons.mp ht
    · exact hprime
    · exact certsHold_spec (allPrime_cons hprime hk) hcs t ht

/-! ### The certificates -/

/-- The field moduli of P-256 and secp256k1. -/
def fieldCertificates : List Certificate :=
  [
  (65537, 3, [2, 2, 2, 2, 2, 2, 2, 2, 2, 2, 2, 2, 2, 2, 2, 2]),
  (490463, 14, [2, 7, 53, 661]),
  (6700417, 5, [2, 2, 2, 2, 2, 2, 2, 3, 17449]),
  (204061199, 11, [2, 11, 23, 107, 3769]),
  (34282281433, 17, [2, 2, 2, 3, 7, 204061199]),
  (66417393611, 6, [2, 5, 53, 173, 197, 3677]),
  (11290956913871, 13, [2, 5, 17, 66417393611]),
  (78283, 3, [2, 3, 3, 4349]),
  (704251, 2, [2, 3, 3, 5, 5, 5, 313]),
  (46076956964474543, 5, [2, 23, 18169, 78283, 704251]),
  (774023187263532362759620327192479577272145303, 3, [2, 3, 3, 2411, 34282281433, 11290956913871, 46076956964474543]),
  (835945042244614951780389953367877943453916927241, 11,
    [2, 2, 2, 3, 3, 3, 5, 774023187263532362759620327192479577272145303])] ++
  [
  (115792089210356248762697446949407573530086143415290314195533631308867097853951, 6,
    [2, 3, 5, 5, 17, 257, 641, 1531, 65537, 490463, 6700417, 835945042244614951780389953367877943453916927241]),
  (24809, 6, [2, 2, 2, 7, 443]),
  (13331831, 13, [2, 5, 971, 1373]),
  (173378833005251801, 6, [2, 2, 2, 5, 5, 2621, 24809, 13331831]),
  (22149492674086928081353, 5, [2, 2, 2, 3, 5323, 173378833005251801]),
  (132896956044521568488119, 6, [2, 3, 22149492674086928081353]),
  (41201, 3, [2, 2, 2, 2, 5, 5, 103]),
  (96557, 2, [2, 2, 101, 239]),
  (20113, 10, [2, 2, 2, 2, 3, 419]),
  (1206781, 10, [2, 2, 3, 5, 20113]),
  (7240687, 3, [2, 3, 1206781]),
  (107590001, 3, [2, 2, 2, 2, 5, 5, 5, 5, 7, 29, 53])] ++
  [
  (255515944373312847190720520512484175977, 3,
    [2, 2, 2, 7, 7, 11, 1627, 2657, 4423, 41201, 96557, 7240687, 107590001]),
  (205115282021455665897114700593932402728804164701536103180137503955397371, 10,
    [2, 3, 5, 29, 29, 31, 7723, 132896956044521568488119, 255515944373312847190720520512484175977]),
  (115792089237316195423570985008687907853269984665640564039457584007908834671663, 3,
    [2, 3, 7, 13441, 205115282021455665897114700593932402728804164701536103180137503955397371])]

/-- The group orders of P-256, secp256k1 and P-521. -/
def orderCertificates : List Certificate :=
  [
  (38189, 2, [2, 2, 9547]),
  (9350987, 2, [2, 17, 229, 1201]),
  (187019741, 2, [2, 2, 5, 9350987]),
  (311245691, 2, [2, 5, 7, 17, 29, 29, 311]),
  (622491383, 5, [2, 311245691]),
  (126241, 7, [2, 2, 2, 2, 2, 3, 5, 263]),
  (104471, 11, [2, 5, 31, 337]),
  (3969899, 2, [2, 19, 104471]),
  (1002328039319, 19, [2, 126241, 3969899]),
  (155317, 5, [2, 2, 3, 7, 43, 43]),
  (191039911, 3, [2, 3, 5, 41, 155317]),
  (208150935158385979, 2, [2, 3, 11, 43, 127, 3023, 191039911])] ++
  [
  (2624747550333869278416773953, 7, [2, 2, 2, 2, 2, 2, 3, 3, 1297, 16879, 208150935158385979]),
  (115792089210356248762697446949407573529996955224135760342422259061068512044369, 7,
    [2, 2, 2, 2, 3, 71, 131, 373, 3407, 17449, 38189, 187019741, 622491383, 1002328039319,
     2624747550333869278416773953]),
  (85831, 3, [2, 3, 5, 2861]),
  (4681609, 23, [2, 2, 2, 3, 97, 2011]),
  (107361793816595537, 3, [2, 2, 2, 2, 16699, 85831, 4681609]),
  (120233, 3, [2, 2, 2, 7, 19, 113]),
  (44706919, 6, [2, 3, 797, 9349]),
  (174723607534414371449, 3, [2, 2, 2, 17, 59, 4051, 120233, 44706919]),
  (305873, 3, [2, 2, 2, 2, 7, 2731]),
  (28181, 2, [2, 2, 5, 1409]),
  (545358713, 5, [2, 2, 2, 41, 59, 28181]),
  (1627771, 3, [2, 3, 5, 29, 1871])] ++
  [
  (297159362677, 2, [2, 2, 3, 3, 11, 461, 1627771]),
  (29047611873442575647497758179, 2, [2, 293, 305873, 545358713, 297159362677]),
  (341948486974166000522343609283189, 2, [2, 2, 3, 3, 3, 109, 29047611873442575647497758179]),
  (115792089237316195423570985008687907852837564279074904382605163141518161494337, 7,
    [2, 2, 2, 2, 2, 2, 3, 149, 631, 107361793816595537, 174723607534414371449, 341948486974166000522343609283189]),
  (1458105463, 3, [2, 3, 3, 3, 3, 3, 11, 311, 877]),
  (186406729, 7, [2, 2, 2, 3, 61, 157, 811]),
  (88599952463812275001, 11, [2, 2, 2, 3, 5, 5, 5, 5, 5, 19, 281, 1187, 186406729]),
  (1647781915921980690468599, 13, [2, 17, 547, 88599952463812275001]),
  (161969, 3, [2, 2, 2, 2, 53, 191]),
  (370471, 3, [2, 3, 5, 53, 233]),
  (133279, 3, [2, 3, 97, 229]),
  (65677, 2, [2, 2, 3, 13, 421])] ++
  [
  (92581, 6, [2, 2, 3, 5, 1543]),
  (10924559, 7, [2, 59, 92581]),
  (3473195323567808068309, 2, [2, 2, 3, 3, 13, 19, 59, 9227, 65677, 10924559]),
  (144471089338257942164514676806340723, 11, [2, 3, 3, 11, 109, 14461, 133279, 3473195323567808068309]),
  (20341, 2, [2, 2, 3, 3, 5, 113]),
  (10577321, 17, [2, 2, 2, 5, 13, 20341]),
  (495527, 5, [2, 41, 6043]),
  (6937379, 2, [2, 7, 495527]),
  (101785224689, 3, [2, 2, 2, 2, 7, 131, 6937379]),
  (8196883, 2, [2, 3, 79, 17293]),
  (43800962361397, 6, [2, 2, 3, 41, 10861, 8196883]),
  (777241, 7, [2, 2, 2, 3, 3, 5, 17, 127])] ++
  [
  (19353437, 2, [2, 2, 277, 17467]),
  (60018716061994831, 7, [2, 3, 5, 7, 19, 777241, 19353437]),
  (4239602065187190872179, 2, [2, 3, 61, 193, 60018716061994831]),
  (7427946019382605513260578233234962521, 3, [2, 2, 2, 5, 43800962361397, 4239602065187190872179]),
  (15994076126984618329123851002118749004583184815459808099, 2,
    [2, 10577321, 101785224689, 7427946019382605513260578233234962521]),
  (3636410625392624440351547907325502812950802686368714273274221490761556277859337865760708490235892541081304511, 19,
    [2, 5, 19, 263, 5449, 15601, 370471, 144471089338257942164514676806340723,
     15994076126984618329123851002118749004583184815459808099]),
  (3615194794881930010216942559103847593050265703173292383701371712350878926821661243755933835426896058418509759880171943, 3,
    [2, 3, 3, 11, 31, 161969,
     3636410625392624440351547907325502812950802686368714273274221490761556277859337865760708490235892541081304511]),
  (6864797660130609714981900799081393217269435300143305409394463459185543183397655394245057746333217197532963996371363321113864768612440380340372808892707005449, 3,
    [2, 2, 2, 7, 11, 1283, 1458105463, 1647781915921980690468599,
     3615194794881930010216942559103847593050265703173292383701371712350878926821661243755933835426896058418509759880171943])]

theorem prime_of_fieldCertificates : ∀ t ∈ fieldCertificates, t.1.Prime :=
  certsHold_spec (known := []) allPrime_nil (by decide +kernel)

theorem prime_of_orderCertificates : ∀ t ∈ orderCertificates, t.1.Prime :=
  certsHold_spec (known := []) allPrime_nil (by decide +kernel)

end Sys2Proof
end

