-- ==== Sys2Proof/Laws/Catalog.lean ====
section
/-! SUPPORT. Every curve of the catalog is a valid curve (R7, R21): its `p` is prime, P-256's and secp256k1's by
certificates, P-521's by the Lucas-Lehmer test; and its `n` is prime, by certificates. -/

namespace Sys2Proof

set_option Elab.async false

/-- A number that heads a certificate of a table is prime. -/
theorem prime_of_mem {cs : List Certificate} (h : ∀ t ∈ cs, t.1.Prime) {p : Nat}
    (hp : (cs.map Prod.fst).contains p = true) : p.Prime := by
  obtain ⟨t, ht, rfl⟩ := List.mem_map.mp (List.contains_iff_mem.mp hp)
  exact h t ht

theorem prime_p521 : Nat.Prime (2 ^ 521 - 1) :=
  lucas_lehmer_sufficiency 521 (by norm_num) (by norm_num)

theorem curveP256_valid : curveP256.Valid :=
  ⟨prime_of_mem prime_of_fieldCertificates (by decide +kernel), by decide +kernel⟩

theorem curveSecp256k1_valid : curveSecp256k1.Valid :=
  ⟨prime_of_mem prime_of_fieldCertificates (by decide +kernel), by decide +kernel⟩

theorem curveP521_valid : curveP521.Valid where
  prime := by
    have h : curveP521.p = 2 ^ 521 - 1 := by decide +kernel
    rw [h]
    exact prime_p521
  checked := by decide +kernel

/-- Every curve of the catalog is valid. -/
theorem catalog_valid (e : CatalogEntry) : e.params.Valid := by
  cases e
  · exact curveP256_valid
  · exact curveSecp256k1_valid
  · exact curveP521_valid

/-- The order of G is prime on every curve of the catalog. -/
theorem catalog_order_prime (e : CatalogEntry) : e.params.n.Prime :=
  prime_of_mem prime_of_orderCertificates (by cases e <;> decide +kernel)

/-- So a build of the hardware on an aligned base is one of R7's. -/
theorem inCatalog_valid {b : Build} (h : b.InCatalog) (ha : b.aligned = true) : b.Valid where
  curve := by
    obtain ⟨e, he⟩ := h
    rw [he]
    exact catalog_valid e
  aligned := ha

end Sys2Proof
end

