-- ==== Sys2Proof/Laws/Points.lean ====
section
/-! SUPPORT. One lemma per point function: it answers, with a reduced point, on reduced operands of a valid curve
(R149, R156, R185). -/

namespace Sys2Proof.Machine

variable {c : CurveParams}

theorem inRange_iff {p v : Nat} : inRange p v = true ↔ v < p := by simp [inRange]

theorem pointInRange_affine {p x y : Nat} : pointInRange p (.affine x y) = true ↔ x < p ∧ y < p := by
  simp [pointInRange, inRange]

@[simp] theorem pointInRange_identity (p : Nat) : pointInRange p .identity = true := rfl

theorem pneg_inRange (h : c.Valid) {P : Point} (hP : pointInRange c.p P = true) :
    pointInRange c.p (pneg c.p P) = true := by
  cases P with
  | identity => rfl
  | affine x y => exact pointInRange_affine.mpr ⟨(pointInRange_affine.mp hP).1, fneg_lt (valid_p_pos h) _⟩

theorem tangentPoint_inRange (h : c.Valid) (x y i : Nat) : pointInRange c.p (tangentPoint c x y i) = true :=
  pointInRange_affine.mpr ⟨fsub_lt (valid_p_pos h) _ _, fsub_lt (valid_p_pos h) _ _⟩

theorem chordPoint_inRange (h : c.Valid) (x1 y1 x2 y2 i : Nat) :
    pointInRange c.p (chordPoint c x1 y1 x2 y2 i) = true :=
  pointInRange_affine.mpr ⟨fsub_lt (valid_p_pos h) _ _, fsub_lt (valid_p_pos h) _ _⟩

/-- R156: `2y` has an inverse. -/
theorem double_invertible (h : c.Valid) {y : Nat} (hy : y < c.p) (h0 : y ≠ 0) :
    ∃ i, finv c.p (fadd c.p y y) = some i := by
  rw [← Option.isSome_iff_exists, finv_isSome_iff h.prime]
  have hodd := valid_p_odd h
  simp only [fadd, Nat.mod_mod]
  intro hz
  have hd : c.p ∣ y + y := Nat.dvd_of_mod_eq_zero hz
  obtain ⟨n, hn⟩ := hd
  rcases n with _ | _ | n
  · omega
  · omega
  · have : c.p * 2 ≤ c.p * (n + 1 + 1) := Nat.mul_le_mul_left _ (by omega)
    omega

/-- R149: a difference of distinct reduced integers has an inverse. -/
theorem difference_invertible (h : c.Valid) {x1 x2 : Nat} (h1 : x1 < c.p) (h2 : x2 < c.p) (hne : x1 ≠ x2) :
    ∃ i, finv c.p (fsub c.p x2 x1) = some i := by
  rw [← Option.isSome_iff_exists, finv_isSome_iff h.prime, Nat.mod_eq_of_lt (fsub_lt (valid_p_pos h) _ _)]
  intro hz
  have hc := fsub_cast c.p x2 x1 (valid_p_pos h)
  rw [hz, Nat.cast_zero] at hc
  exact hne (eq_of_cast_eq h1 h2 (sub_eq_zero.mp hc.symm).symm)

/-- What doubling answers (R158). -/
theorem pdbl_cases (h : c.Valid) {P : Point} (hP : pointInRange c.p P = true) :
    (pdbl c P = .ok .identity) ∨
      ∃ x y i, P = .affine x y ∧ y ≠ 0 ∧ finv c.p (fadd c.p y y) = some i ∧ pdbl c P = .ok (tangentPoint c x y i) := by
  cases P with
  | identity => exact .inl rfl
  | affine x y =>
    by_cases h0 : y = 0
    · exact .inl (by simp [pdbl, h0])
    · obtain ⟨i, hi⟩ := double_invertible h (pointInRange_affine.mp hP).2 h0
      exact .inr ⟨x, y, i, rfl, h0, hi, by simp [pdbl, h0, hi]⟩

theorem pdbl_total (h : c.Valid) {P : Point} (hP : pointInRange c.p P = true) :
    ∃ r, pdbl c P = .ok r ∧ pointInRange c.p r = true := by
  obtain h1 | ⟨x, y, i, -, -, -, h1⟩ := pdbl_cases h hP
  · exact ⟨_, h1, rfl⟩
  · exact ⟨_, h1, tangentPoint_inRange h _ _ _⟩

/-- What adding two finite points with different `x` answers (R148 step 4). -/
theorem padd_chord (h : c.Valid) {x1 y1 x2 y2 : Nat} (h1 : x1 < c.p) (h2 : x2 < c.p) (hne : x1 ≠ x2) :
    ∃ i, finv c.p (fsub c.p x2 x1) = some i ∧
      padd c (.affine x1 y1) (.affine x2 y2) = .ok (chordPoint c x1 y1 x2 y2 i) := by
  obtain ⟨i, hi⟩ := difference_invertible h h1 h2 hne
  exact ⟨i, hi, by simp [padd, hne, hi]⟩

theorem padd_total (h : c.Valid) {P Q : Point} (hP : pointInRange c.p P = true) (hQ : pointInRange c.p Q = true) :
    ∃ r, padd c P Q = .ok r ∧ pointInRange c.p r = true := by
  cases P with
  | identity => exact ⟨Q, rfl, hQ⟩
  | affine x1 y1 =>
    cases Q with
    | identity => exact ⟨_, rfl, hP⟩
    | affine x2 y2 =>
      by_cases hx : x1 = x2
      · by_cases hy : y1 = y2
        · obtain ⟨r, hr, hr'⟩ := pdbl_total h hP
          exact ⟨r, by simp [padd, hx, hy, ← hr], hr'⟩
        · exact ⟨.identity, by simp [padd, hx, hy], rfl⟩
      · obtain ⟨i, -, hi⟩ := padd_chord h (y1 := y1) (y2 := y2) (pointInRange_affine.mp hP).1
          (pointInRange_affine.mp hQ).1 hx
        exact ⟨_, hi, chordPoint_inRange h _ _ _ _ _⟩

theorem psmulStep_total (h : c.Valid) {P acc : Point} (hP : pointInRange c.p P = true)
    (hacc : pointInRange c.p acc = true) (k i : Nat) :
    ∃ r, psmulStep c P k i acc = .ok r ∧ pointInRange c.p r = true := by
  obtain ⟨a, ha, ha'⟩ := pdbl_total h hacc
  unfold psmulStep
  rw [ha]
  by_cases hk : k.testBit i = true
  · simpa [hk] using padd_total h ha' hP
  · exact ⟨a, by simp [hk], ha'⟩

theorem psmulFrom_total (h : c.Valid) {P : Point} (hP : pointInRange c.p P = true) (k : Nat) :
    ∀ (n : Nat) {acc : Point}, pointInRange c.p acc = true →
      ∃ r, psmulFrom c P k n acc = .ok r ∧ pointInRange c.p r = true
  | 0, acc, hacc => ⟨acc, rfl, hacc⟩
  | n + 1, acc, hacc => by
    obtain ⟨a, ha, ha'⟩ := psmulStep_total h hP hacc k n
    obtain ⟨r, hr, hr'⟩ := psmulFrom_total h hP k n ha'
    exact ⟨r, by rw [psmulFrom, ha]; exact hr, hr'⟩

/-- One more iteration is a stage of the same loop. -/
theorem psmulFrom_step {P acc acc' : Point} {k i : Nat} (h : psmulStep c P k i acc = .ok acc') :
    psmulFrom c P k (i + 1) acc = psmulFrom c P k i acc' := by
  rw [psmulFrom, h]

end Sys2Proof.Machine
end

