-- ==== Sys2Proof/Laws/Group.lean ====
section
/-! SUPPORT. What the point functions answer on reduced operands, in the terms of Safety.lean: the formulas of R146 and R154
read modulo `p`, and the loop of R180. -/

namespace Sys2Proof.Machine

variable {c : CurveParams}

theorem modEq_of_cast {p : Nat} {a b : Int} (h : (a : ZMod p) = (b : ZMod p)) : a ≡ b [ZMOD p] :=
  (ZMod.intCast_eq_intCast_iff a b p).mp h

/-- R158: the tangent point is what R154 gives. -/
theorem tangentPoint_spec (h : c.Valid) {x y i : Nat} (hi : finv c.p (fadd c.p y y) = some i) :
    ∃ x3 y3, tangentPoint c x y i = .affine x3 y3 ∧ TangentDouble c.p c.a x y x3 y3 := by
  have hp := valid_p_pos h
  have hinv : (i : ZMod c.p) * (y + y) = 1 := by
    have := ((invMod_eq_some_iff h.prime.one_lt).mp hi).2
    have hc : ((fadd c.p y y * i : Nat) : ZMod c.p) = ((1 : Nat) : ZMod c.p) := by
      rw [ZMod.natCast_eq_natCast_iff', this, Nat.mod_eq_of_lt h.prime.one_lt]
    rw [Nat.cast_mul, fadd_cast, Nat.cast_one] at hc
    rw [mul_comm]; exact hc
  refine ⟨_, _, rfl, fsub_lt hp _ _, fsub_lt hp _ _,
    ((fmul c.p (fadd c.p (fmul c.p 3 (fmul c.p x x)) c.a) i : Nat) : Int), ?_, ?_, ?_⟩ <;> apply modEq_of_cast
  · push_cast [fmul_cast, fadd_cast]
    linear_combination (3 * (x : ZMod c.p) ^ 2 + c.a) * hinv
  · push_cast [fsub_cast _ _ _ hp, fmul_cast, fadd_cast]; ring
  · push_cast [fsub_cast _ _ _ hp, fmul_cast, fadd_cast]; ring

/-- R148 step 4: the chord point is what R146 step 4 gives. -/
theorem chordPoint_spec (h : c.Valid) {x1 y1 x2 y2 i : Nat} (hi : finv c.p (fsub c.p x2 x1) = some i) :
    ∃ x3 y3, chordPoint c x1 y1 x2 y2 i = .affine x3 y3 ∧ ChordSum c.p x1 y1 x2 y2 x3 y3 := by
  have hp := valid_p_pos h
  have hinv : (i : ZMod c.p) * (x2 - x1) = 1 := by
    have := ((invMod_eq_some_iff h.prime.one_lt).mp hi).2
    have hc : ((fsub c.p x2 x1 * i : Nat) : ZMod c.p) = ((1 : Nat) : ZMod c.p) := by
      rw [ZMod.natCast_eq_natCast_iff', this, Nat.mod_eq_of_lt h.prime.one_lt]
    rw [Nat.cast_mul, fsub_cast _ _ _ hp, Nat.cast_one] at hc
    rw [mul_comm]; exact hc
  refine ⟨_, _, rfl, fsub_lt hp _ _, fsub_lt hp _ _,
    ((fmul c.p (fsub c.p y2 y1) i : Nat) : Int), ?_, ?_, ?_⟩ <;> apply modEq_of_cast
  · push_cast [fmul_cast, fsub_cast _ _ _ hp]
    linear_combination ((y2 : ZMod c.p) - y1) * hinv
  · push_cast [fsub_cast _ _ _ hp, fmul_cast]; ring
  · push_cast [fsub_cast _ _ _ hp, fmul_cast]; ring

/-- R154, R155. -/
theorem pdbl_isDouble (h : c.Valid) {P R : Point} (hP : pointInRange c.p P = true) (hR : pdbl c P = .ok R) :
    IsDouble c P R := by
  cases P with
  | identity => cases hR; rfl
  | affine x y =>
    by_cases h0 : y = 0
    · simp only [pdbl, h0, if_true] at hR; cases hR; exact .inl ⟨h0, rfl⟩
    · obtain ⟨i, hi⟩ := double_invertible h (pointInRange_affine.mp hP).2 h0
      simp only [pdbl, h0, if_false, hi] at hR; cases hR
      exact .inr ⟨h0, tangentPoint_spec h hi⟩

/-- R146, R147. -/
theorem padd_isSum (h : c.Valid) {P Q R : Point} (hP : pointInRange c.p P = true) (hQ : pointInRange c.p Q = true)
    (hR : padd c P Q = .ok R) : IsSum c P Q R := by
  cases P with
  | identity => cases hR; rfl
  | affine x1 y1 =>
    cases Q with
    | identity => cases hR; rfl
    | affine x2 y2 =>
      by_cases hx : x1 = x2
      · by_cases hy : y1 = y2
        · simp only [padd, hx, hy, and_self, if_true] at hR
          exact .inl ⟨hx, hy, pdbl_isDouble h hP (by rw [hx, hy]; exact hR)⟩
        · simp only [padd, hx, hy, and_false, if_false, if_true] at hR; cases hR
          exact .inr (.inl ⟨hx, hy, rfl⟩)
      · obtain ⟨i, hi, hc⟩ := padd_chord h (y1 := y1) (y2 := y2) (pointInRange_affine.mp hP).1
          (pointInRange_affine.mp hQ).1 hx
        rw [hc] at hR; cases hR
        exact .inr (.inr ⟨hx, chordPoint_spec h hi⟩)

/-- One iteration is a stage of R180's loop. -/
theorem psmulStep_loop (h : c.Valid) {P acc acc' : Point} {k i : Nat} (hP : pointInRange c.p P = true)
    (hacc : pointInRange c.p acc = true) (hi : i < c.width) (hs : psmulStep c P k i acc = .ok acc')
    (hl : ScalarLoop c P k (c.width - 1 - i) acc) : ScalarLoop c P k (c.width - i) acc' := by
  rw [show c.width - i = (c.width - 1 - i) + 1 by omega]
  obtain ⟨d, hd, hd'⟩ := pdbl_total h hacc
  refine ⟨acc, d, hl, pdbl_isDouble h hacc hd, ?_⟩
  rw [show c.width - 1 - (c.width - 1 - i) = i by omega]
  unfold psmulStep at hs
  rw [hd] at hs
  by_cases hk : k.testBit i = true
  · simp only [hk, if_true] at hs ⊢; exact padd_isSum h hd' hP hs
  · simp only [hk] at hs ⊢; cases hs; rfl

/-- R180: what the loop answers from any stage of it is its accumulator after all `W` bits. -/
theorem psmulFrom_loop (h : c.Valid) {P : Point} {k : Nat} (hP : pointInRange c.p P = true) :
    ∀ (n : Nat) {acc R : Point}, n ≤ c.width → pointInRange c.p acc = true → ScalarLoop c P k (c.width - n) acc →
      psmulFrom c P k n acc = .ok R → ScalarLoop c P k c.width R
  | 0, acc, R, _, _, hl, hR => by cases hR; simpa using hl
  | n + 1, acc, R, hn, hacc, hl, hR => by
    obtain ⟨a, ha, ha'⟩ := psmulStep_total h hP hacc k n
    rw [psmulFrom_step ha] at hR
    exact psmulFrom_loop h hP n (by omega) ha'
      (psmulStep_loop h hP hacc (by omega) ha (by rwa [show c.width - 1 - n = c.width - (n + 1) by omega])) hR

end Sys2Proof.Machine
end

