-- ==== Sys2Proof/Laws/Homogeneous.lean ====
section
/-! SUPPORT. Scalar multiplication without inverses: the loop of R180 in homogeneous coordinates, `(X, Y, Z)` standing for
the point `(X / Z, Y / Z)`. It answers what `psmul` answers, and evaluates much faster on the catalog's curves. -/

namespace Sys2Proof.Machine

variable {c : CurveParams}

/-- A point in homogeneous coordinates; none is the identity. -/
abbrev HPoint := Option (Nat × Nat × Nat)

/-- `(a - b) mod p` for a reduced `b`. -/
def hsub (p a b : Nat) : Nat := (a + (p - b)) % p

/-- R158, its denominators multiplied out. -/
def hdbl (c : CurveParams) : HPoint → HPoint
  | none => none
  | some (X, Y, Z) =>
    if Y % c.p = 0 then none
    else
      let w := (3 * (X * X) + c.a * (Z * Z)) % c.p
      let s := 2 * (Y * Z) % c.p
      let t := 2 * (X * Y) % c.p * s % c.p
      let h := hsub c.p (w * w) (2 * t % c.p)
      some (h * s % c.p, hsub c.p (w * hsub c.p t h) (2 * (Y * Y) % c.p * (s * s) % c.p), s * s % c.p * s % c.p)

/-- R148 for a finite second operand `(x, y)`, its denominators multiplied out. -/
def hadd (c : CurveParams) (x y : Nat) : HPoint → HPoint
  | none => some (x, y, 1)
  | some (X, Y, Z) =>
    let u := hsub c.p (y * Z) Y
    let v := hsub c.p (x * Z) X
    if v = 0 then if u = 0 then hdbl c (some (x, y, 1)) else none
    else
      let vv := v * v % c.p
      let vX := vv * X % c.p
      let A := hsub c.p (u * u % c.p * Z) (vv * ((X + x * Z) % c.p) % c.p)
      some (v * A % c.p, hsub c.p (u * hsub c.p vX A) (vv * v % c.p * Y % c.p), vv * v % c.p * Z % c.p)

/-- R180's loop. -/
def hmul (c : CurveParams) (x y k : Nat) : Nat → HPoint → HPoint
  | 0, acc => acc
  | i + 1, acc =>
    let acc2 := hdbl c acc
    hmul c x y k i (if k.testBit i then hadd c x y acc2 else acc2)

/-- The homogeneous point is reduced and stands for the point. -/
def Stands (c : CurveParams) : HPoint → Point → Prop
  | none, R => R = .identity
  | some (X, Y, Z), R => X < c.p ∧ Y < c.p ∧ (Z : ZMod c.p) ≠ 0 ∧
      ∃ x y, R = .affine x y ∧ x < c.p ∧ y < c.p ∧ (x : ZMod c.p) * Z = X ∧ (y : ZMod c.p) * Z = Y

theorem hsub_cast {p b : Nat} (a : Nat) (hb : b < p) : ((hsub p a b : Nat) : ZMod p) = a - b := by
  rw [hsub, ZMod.natCast_mod, Nat.cast_add, Nat.cast_sub hb.le, ZMod.natCast_self]
  ring

theorem hsub_lt {p : Nat} (hp : 0 < p) (a b : Nat) : hsub p a b < p := Nat.mod_lt _ hp

theorem cast_of_modEq {p : Nat} {a b : Int} (h : a ≡ b [ZMOD p]) : (a : ZMod p) = (b : ZMod p) :=
  (ZMod.intCast_eq_intCast_iff a b p).mpr h

theorem natCast_ne_zero {p a : Nat} (ha : a < p) (h : a ≠ 0) : (a : ZMod p) ≠ 0 := by
  intro hz
  exact h (eq_of_cast_eq ha (by omega) (by simpa using hz))

theorem stands_affine (h : c.Valid) {x y : Nat} (hx : x < c.p) (hy : y < c.p) :
    Stands c (some (x, y, 1)) (.affine x y) := by
  have := Fact.mk h.prime
  exact ⟨hx, hy, by simp, x, y, rfl, hx, hy, by simp, by simp⟩

theorem stands_inRange {H : HPoint} {R : Point} (hs : Stands c H R) : pointInRange c.p R = true := by
  cases H with
  | none => cases hs; rfl
  | some T => obtain ⟨-, -, -, x, y, rfl, hx, hy, -, -⟩ := hs; exact pointInRange_affine.mpr ⟨hx, hy⟩

theorem hdbl_stands (h : c.Valid) {H : HPoint} {P : Point} (hs : Stands c H P) :
    ∃ R, pdbl c P = .ok R ∧ Stands c (hdbl c H) R := by
  have := Fact.mk h.prime
  have hp := valid_p_pos h
  obtain ⟨R, hR, hR'⟩ := pdbl_total h (stands_inRange hs)
  have hd := pdbl_isDouble h (stands_inRange hs) hR
  refine ⟨R, hR, ?_⟩
  cases H with
  | none => cases hs; exact hd
  | some T =>
    obtain ⟨X, Y, Z⟩ := T
    obtain ⟨hX, hY, hZ, x, y, rfl, hx, hy, hxZ, hyZ⟩ := hs
    have h2 : (2 : ZMod c.p) ≠ 0 := by
      have := natCast_ne_zero (p := c.p) (a := 2) (by have := valid_p_gt_three h; omega) (by omega)
      exact_mod_cast this
    have hiff : Y % c.p = 0 ↔ y = 0 := by
      rw [Nat.mod_eq_of_lt hY]
      constructor
      · intro h0
        by_contra hne
        exact mul_ne_zero (natCast_ne_zero hy hne) hZ (by rw [hyZ, h0]; simp)
      · rintro rfl
        exact eq_of_cast_eq hY hp (by simpa using hyZ.symm)
    obtain ⟨h0, rfl⟩ | ⟨h0, x3, y3, rfl, h3, h3', lam, e1, e2, e3⟩ := hd
    · simp only [hdbl, hiff.mpr h0, if_true, Stands]
    · have e1 := cast_of_modEq e1
      have e2 := cast_of_modEq e2
      have e3 := cast_of_modEq e3
      push_cast at e1 e2 e3
      have hy0 := natCast_ne_zero hy h0
      simp only [hdbl, mt hiff.mp h0, if_false]
      refine ⟨Nat.mod_lt _ hp, hsub_lt hp _ _, ?_, x3, y3, rfl, h3, h3', ?_, ?_⟩
      · push_cast [ZMod.natCast_mod]
        rw [← hyZ]
        have := mul_ne_zero h2 (mul_ne_zero (mul_ne_zero hy0 hZ) hZ)
        exact mul_ne_zero (mul_ne_zero this this) this
      all_goals
        push_cast [ZMod.natCast_mod, hsub_cast _ (Nat.mod_lt _ hp), hsub_cast _ (hsub_lt hp _ _)]
        rw [← hyZ, ← hxZ]
        have hw : 3 * ((x : ZMod c.p) * Z * (x * Z)) + c.a * (Z * Z) = lam * (2 * ((y : ZMod c.p) * Z * Z)) := by
          linear_combination -(Z : ZMod c.p) ^ 2 * e1
        rw [hw]
      · rw [e2]; ring
      · rw [e3, e2]; ring

theorem hadd_stands (h : c.Valid) {H : HPoint} {P : Point} {x2 y2 : Nat} (hx2 : x2 < c.p) (hy2 : y2 < c.p)
    (hs : Stands c H P) : ∃ R, padd c P (.affine x2 y2) = .ok R ∧ Stands c (hadd c x2 y2 H) R := by
  have := Fact.mk h.prime
  have hp := valid_p_pos h
  have hQ := pointInRange_affine.mpr ⟨hx2, hy2⟩
  obtain ⟨R, hR, hR'⟩ := padd_total h (stands_inRange hs) hQ
  have hd := padd_isSum h (stands_inRange hs) hQ hR
  refine ⟨R, hR, ?_⟩
  cases H with
  | none => cases hs; cases hd; exact stands_affine h hx2 hy2
  | some T =>
    obtain ⟨X, Y, Z⟩ := T
    obtain ⟨hX, hY, hZ, x, y, rfl, hx, hy, hxZ, hyZ⟩ := hs
    -- a difference vanishes exactly on equal coordinates
    have hv : ∀ {W w w2 : Nat}, W < c.p → w < c.p → w2 < c.p → (w : ZMod c.p) * Z = W →
        (hsub c.p (w2 * Z) W = 0 ↔ w = w2) := by
      intro W w w2 hW hw hw2 he
      have hc : ((hsub c.p (w2 * Z) W : Nat) : ZMod c.p) = ((w2 : ZMod c.p) - w) * Z := by
        rw [hsub_cast _ hW]; push_cast; rw [← he]; ring
      constructor
      · intro h0
        rw [h0, Nat.cast_zero, eq_comm, mul_eq_zero, or_iff_left hZ] at hc
        exact (eq_of_cast_eq hw2 hw (sub_eq_zero.mp hc)).symm
      · rintro rfl
        exact eq_of_cast_eq (hsub_lt hp _ _) hp (by simpa using hc)
    have hvx := hv hX hx hx2 hxZ
    have hvy := hv hY hy hy2 hyZ
    obtain ⟨ex, ey, hdd⟩ | ⟨ex, ey, rfl⟩ | ⟨ex, x3, y3, rfl, h3, h3', lam, e1, e2, e3⟩ := hd
    · simp only [hadd, hvx.mpr ex, hvy.mpr ey, if_true]
      obtain ⟨R', hR1, hR2⟩ := hdbl_stands h (stands_affine h hx2 hy2)
      have : padd c (.affine x y) (.affine x2 y2) = pdbl c (.affine x2 y2) := by
        subst ex; subst ey; simp [padd]
      rw [this, hR1] at hR
      cases hR
      exact hR2
    · simp only [hadd, hvx.mpr ex, mt hvy.mp ey, if_true, if_false, Stands]
    · have e1 := cast_of_modEq e1
      have e2 := cast_of_modEq e2
      have e3 := cast_of_modEq e3
      push_cast at e1 e2 e3
      have hv0 : (x2 : ZMod c.p) - x ≠ 0 := fun hz => ex (eq_of_cast_eq hx2 hx (sub_eq_zero.mp hz)).symm
      simp only [hadd, mt hvx.mp ex, if_false]
      refine ⟨Nat.mod_lt _ hp, hsub_lt hp _ _, ?_, x3, y3, rfl, h3, h3', ?_, ?_⟩
      · push_cast [ZMod.natCast_mod, hsub_cast _ hX]
        rw [← hxZ]
        have := mul_ne_zero hv0 hZ
        rw [sub_mul] at this
        exact mul_ne_zero (mul_ne_zero (mul_ne_zero this this) this) hZ
      all_goals
        push_cast [ZMod.natCast_mod, hsub_cast _ (Nat.mod_lt _ hp), hsub_cast _ (hsub_lt hp _ _), hsub_cast _ hX,
          hsub_cast _ hY]
        rw [← hyZ, ← hxZ]
        have hu : (y2 : ZMod c.p) * Z - y * Z = lam * (x2 * Z - x * Z) := by
          linear_combination -(Z : ZMod c.p) * e1
        rw [hu]
      · rw [e2]; ring
      · rw [e3, e2]; ring

theorem hmul_stands (h : c.Valid) {x y k : Nat} (hx : x < c.p) (hy : y < c.p) :
    ∀ (n : Nat) {H : HPoint} {acc : Point}, Stands c H acc →
      ∃ R, psmulFrom c (.affine x y) k n acc = .ok R ∧ Stands c (hmul c x y k n H) R
  | 0, H, acc, hs => ⟨acc, rfl, hs⟩
  | n + 1, H, acc, hs => by
    obtain ⟨d, hd, hds⟩ := hdbl_stands h hs
    by_cases hk : k.testBit n = true
    · obtain ⟨a, ha, has⟩ := hadd_stands h hx hy hds
      obtain ⟨R, hR, hRs⟩ := hmul_stands h hx hy n has
      exact ⟨R, by rw [psmulFrom_step (acc' := a) (by simp [psmulStep, hd, hk, ha])]; exact hR, by simpa [hmul, hk] using hRs⟩
    · obtain ⟨R, hR, hRs⟩ := hmul_stands h hx hy n hds
      exact ⟨R, by rw [psmulFrom_step (acc' := d) (by simp [psmulStep, hd, hk])]; exact hR, by simpa [hmul, hk] using hRs⟩

/-- The homogeneous point and the point value have the same coordinates. -/
def hagrees (c : CurveParams) : HPoint → Point → Bool
  | none, .identity => true
  | some (X, Y, Z), .affine x y => decide (x < c.p) && decide (y < c.p) && x * Z % c.p == X && y * Z % c.p == Y
  | none, .affine _ _ => false
  | some _, .identity => false

/-- A check on numbers that shows what `psmul` answers. -/
theorem psmul_of_hmul (h : c.Valid) {x y k : Nat} {R : Point} (hx : x < c.p) (hy : y < c.p)
    (hc : hagrees c (hmul c x y k c.width none) R = true) : psmul c (.affine x y) k = .ok R := by
  have := Fact.mk h.prime
  obtain ⟨R', hR, hs⟩ := hmul_stands h (k := k) hx hy c.width (H := none) (acc := .identity) rfl
  rw [psmul, hR]
  cases hH : hmul c x y k c.width none with
  | none =>
    rw [hH] at hs hc
    cases R with
    | identity => rw [show R' = .identity from hs]
    | affine => simp [hagrees] at hc
  | some T =>
    obtain ⟨X, Y, Z⟩ := T
    rw [hH] at hs hc
    cases R with
    | identity => simp [hagrees] at hc
    | affine a b =>
      obtain ⟨-, -, hZ, x', y', rfl, hx', hy', ex, ey⟩ := hs
      simp only [hagrees, Bool.and_eq_true, decide_eq_true_eq, beq_iff_eq] at hc
      obtain ⟨⟨⟨ha, hb⟩, e1⟩, e2⟩ := hc
      have e1 : (a : ZMod c.p) * Z = X := by rw [← e1]; push_cast [ZMod.natCast_mod]; rfl
      have e2 : (b : ZMod c.p) * Z = Y := by rw [← e2]; push_cast [ZMod.natCast_mod]; rfl
      rw [eq_of_cast_eq hx' ha (mul_right_cancel₀ hZ (ex.trans e1.symm)),
        eq_of_cast_eq hy' hb (mul_right_cancel₀ hZ (ey.trans e2.symm))]

end Sys2Proof.Machine
end

