-- ==== Sys2Proof/Laws/State.lean ====
section
/-! SUPPORT. One lemma per field per update of the state, each true by unfolding once, so that no later proof unfolds a
record update. -/

namespace Sys2Proof.Machine

section Fields
variable (s : State)

/-! ### endCommand -/

@[simp] theorem endCommand_build (e : ErrCode) : (s.endCommand e).build = s.build := rfl
@[simp] theorem endCommand_px (e : ErrCode) : (s.endCommand e).px = s.px := rfl
@[simp] theorem endCommand_py (e : ErrCode) : (s.endCommand e).py = s.py := rfl
@[simp] theorem endCommand_pinf (e : ErrCode) : (s.endCommand e).pinf = s.pinf := rfl
@[simp] theorem endCommand_qx (e : ErrCode) : (s.endCommand e).qx = s.qx := rfl
@[simp] theorem endCommand_qy (e : ErrCode) : (s.endCommand e).qy = s.qy := rfl
@[simp] theorem endCommand_qinf (e : ErrCode) : (s.endCommand e).qinf = s.qinf := rfl
@[simp] theorem endCommand_k (e : ErrCode) : (s.endCommand e).k = s.k := rfl
@[simp] theorem endCommand_rx (e : ErrCode) : (s.endCommand e).rx = s.rx := rfl
@[simp] theorem endCommand_ry (e : ErrCode) : (s.endCommand e).ry = s.ry := rfl
@[simp] theorem endCommand_rinf (e : ErrCode) : (s.endCommand e).rinf = s.rinf := rfl
@[simp] theorem endCommand_cmd (e : ErrCode) : (s.endCommand e).cmd = s.cmd := rfl
@[simp] theorem endCommand_done (e : ErrCode) : (s.endCommand e).done = true := rfl
@[simp] theorem endCommand_eq (e : ErrCode) : (s.endCommand e).eq = s.eq := rfl
@[simp] theorem endCommand_ovr (e : ErrCode) : (s.endCommand e).ovr = s.ovr := rfl
@[simp] theorem endCommand_wign (e : ErrCode) : (s.endCommand e).wign = s.wign := rfl
@[simp] theorem endCommand_errcode (e : ErrCode) : (s.endCommand e).errcode = e := rfl
@[simp] theorem endCommand_ie (e : ErrCode) : (s.endCommand e).ie = s.ie := rfl
@[simp] theorem endCommand_seq (e : ErrCode) : (s.endCommand e).seq = .idle := rfl
@[simp] theorem endCommand_smul (e : ErrCode) : (s.endCommand e).smul = none := rfl
@[simp] theorem endCommand_rst (e : ErrCode) : (s.endCommand e).rst = s.rst := rfl
@[simp] theorem endCommand_response (e : ErrCode) : (s.endCommand e).response = s.response := rfl
@[simp] theorem endCommand_events (e : ErrCode) : (s.endCommand e).events = s.events := rfl

/-! ### accept -/

@[simp] theorem accept_build (v : Word) : (s.accept v).build = s.build := rfl
@[simp] theorem accept_px (v : Word) : (s.accept v).px = s.px := rfl
@[simp] theorem accept_py (v : Word) : (s.accept v).py = s.py := rfl
@[simp] theorem accept_pinf (v : Word) : (s.accept v).pinf = s.pinf := rfl
@[simp] theorem accept_qx (v : Word) : (s.accept v).qx = s.qx := rfl
@[simp] theorem accept_qy (v : Word) : (s.accept v).qy = s.qy := rfl
@[simp] theorem accept_qinf (v : Word) : (s.accept v).qinf = s.qinf := rfl
@[simp] theorem accept_k (v : Word) : (s.accept v).k = s.k := rfl
@[simp] theorem accept_rx (v : Word) : (s.accept v).rx = s.rx := rfl
@[simp] theorem accept_ry (v : Word) : (s.accept v).ry = s.ry := rfl
@[simp] theorem accept_rinf (v : Word) : (s.accept v).rinf = s.rinf := rfl
@[simp] theorem accept_cmd (v : Word) : (s.accept v).cmd = v := rfl
@[simp] theorem accept_done (v : Word) : (s.accept v).done = false := rfl
@[simp] theorem accept_eq (v : Word) : (s.accept v).eq = s.eq := rfl
@[simp] theorem accept_ovr (v : Word) : (s.accept v).ovr = s.ovr := rfl
@[simp] theorem accept_wign (v : Word) : (s.accept v).wign = s.wign := rfl
@[simp] theorem accept_errcode (v : Word) : (s.accept v).errcode = .none := rfl
@[simp] theorem accept_ie (v : Word) : (s.accept v).ie = s.ie := rfl
@[simp] theorem accept_seq (v : Word) : (s.accept v).seq = .busy v := rfl
@[simp] theorem accept_smul (v : Word) : (s.accept v).smul = none := rfl
@[simp] theorem accept_rst (v : Word) : (s.accept v).rst = s.rst := rfl
@[simp] theorem accept_response (v : Word) : (s.accept v).response = s.response := rfl
@[simp] theorem accept_events (v : Word) : (s.accept v).events = s.events := rfl

/-! ### writeStatus -/

@[simp] theorem writeStatus_build (v : Word) : (s.writeStatus v).build = s.build := rfl
@[simp] theorem writeStatus_px (v : Word) : (s.writeStatus v).px = s.px := rfl
@[simp] theorem writeStatus_py (v : Word) : (s.writeStatus v).py = s.py := rfl
@[simp] theorem writeStatus_pinf (v : Word) : (s.writeStatus v).pinf = s.pinf := rfl
@[simp] theorem writeStatus_qx (v : Word) : (s.writeStatus v).qx = s.qx := rfl
@[simp] theorem writeStatus_qy (v : Word) : (s.writeStatus v).qy = s.qy := rfl
@[simp] theorem writeStatus_qinf (v : Word) : (s.writeStatus v).qinf = s.qinf := rfl
@[simp] theorem writeStatus_k (v : Word) : (s.writeStatus v).k = s.k := rfl
@[simp] theorem writeStatus_rx (v : Word) : (s.writeStatus v).rx = s.rx := rfl
@[simp] theorem writeStatus_ry (v : Word) : (s.writeStatus v).ry = s.ry := rfl
@[simp] theorem writeStatus_rinf (v : Word) : (s.writeStatus v).rinf = s.rinf := rfl
@[simp] theorem writeStatus_cmd (v : Word) : (s.writeStatus v).cmd = s.cmd := rfl
@[simp] theorem writeStatus_done (v : Word) : (s.writeStatus v).done = (s.done && !v.getLsbD 1) := rfl
@[simp] theorem writeStatus_eq (v : Word) : (s.writeStatus v).eq = s.eq := rfl
@[simp] theorem writeStatus_ovr (v : Word) : (s.writeStatus v).ovr = (s.ovr && !v.getLsbD 5) := rfl
@[simp] theorem writeStatus_wign (v : Word) : (s.writeStatus v).wign = (s.wign && !v.getLsbD 6) := rfl
@[simp] theorem writeStatus_errcode (v : Word) : (s.writeStatus v).errcode = s.errcode := rfl
@[simp] theorem writeStatus_ie (v : Word) : (s.writeStatus v).ie = s.ie := rfl
@[simp] theorem writeStatus_seq (v : Word) : (s.writeStatus v).seq = s.seq := rfl
@[simp] theorem writeStatus_smul (v : Word) : (s.writeStatus v).smul = s.smul := rfl
@[simp] theorem writeStatus_rst (v : Word) : (s.writeStatus v).rst = s.rst := rfl
@[simp] theorem writeStatus_response (v : Word) : (s.writeStatus v).response = s.response := rfl
@[simp] theorem writeStatus_events (v : Word) : (s.writeStatus v).events = s.events := rfl

/-! ### releaseReset -/

@[simp] theorem releaseReset_build : (s.releaseReset).build = s.build := rfl
@[simp] theorem releaseReset_px : (s.releaseReset).px = s.px := rfl
@[simp] theorem releaseReset_py : (s.releaseReset).py = s.py := rfl
@[simp] theorem releaseReset_pinf : (s.releaseReset).pinf = s.pinf := rfl
@[simp] theorem releaseReset_qx : (s.releaseReset).qx = s.qx := rfl
@[simp] theorem releaseReset_qy : (s.releaseReset).qy = s.qy := rfl
@[simp] theorem releaseReset_qinf : (s.releaseReset).qinf = s.qinf := rfl
@[simp] theorem releaseReset_k : (s.releaseReset).k = s.k := rfl
@[simp] theorem releaseReset_rx : (s.releaseReset).rx = s.rx := rfl
@[simp] theorem releaseReset_ry : (s.releaseReset).ry = s.ry := rfl
@[simp] theorem releaseReset_rinf : (s.releaseReset).rinf = s.rinf := rfl
@[simp] theorem releaseReset_cmd : (s.releaseReset).cmd = s.cmd := rfl
@[simp] theorem releaseReset_done : (s.releaseReset).done = s.done := rfl
@[simp] theorem releaseReset_eq : (s.releaseReset).eq = s.eq := rfl
@[simp] theorem releaseReset_ovr : (s.releaseReset).ovr = s.ovr := rfl
@[simp] theorem releaseReset_wign : (s.releaseReset).wign = s.wign := rfl
@[simp] theorem releaseReset_errcode : (s.releaseReset).errcode = s.errcode := rfl
@[simp] theorem releaseReset_ie : (s.releaseReset).ie = s.ie := rfl
@[simp] theorem releaseReset_seq : (s.releaseReset).seq = s.seq := rfl
@[simp] theorem releaseReset_smul : (s.releaseReset).smul = s.smul := rfl
@[simp] theorem releaseReset_rst : (s.releaseReset).rst = false := rfl
@[simp] theorem releaseReset_response : (s.releaseReset).response = s.response := rfl
@[simp] theorem releaseReset_events : (s.releaseReset).events = s.events := rfl

/-! ### loadCommand -/

@[simp] theorem loadCommand_build (v : Word) : (s.loadCommand v).build = s.build := rfl
@[simp] theorem loadCommand_px (v : Word) : (s.loadCommand v).px = s.px := rfl
@[simp] theorem loadCommand_py (v : Word) : (s.loadCommand v).py = s.py := rfl
@[simp] theorem loadCommand_pinf (v : Word) : (s.loadCommand v).pinf = s.pinf := rfl
@[simp] theorem loadCommand_qx (v : Word) : (s.loadCommand v).qx = s.qx := rfl
@[simp] theorem loadCommand_qy (v : Word) : (s.loadCommand v).qy = s.qy := rfl
@[simp] theorem loadCommand_qinf (v : Word) : (s.loadCommand v).qinf = s.qinf := rfl
@[simp] theorem loadCommand_k (v : Word) : (s.loadCommand v).k = s.k := rfl
@[simp] theorem loadCommand_rx (v : Word) : (s.loadCommand v).rx = s.rx := rfl
@[simp] theorem loadCommand_ry (v : Word) : (s.loadCommand v).ry = s.ry := rfl
@[simp] theorem loadCommand_rinf (v : Word) : (s.loadCommand v).rinf = s.rinf := rfl
@[simp] theorem loadCommand_cmd (v : Word) : (s.loadCommand v).cmd = v := rfl
@[simp] theorem loadCommand_done (v : Word) : (s.loadCommand v).done = false := rfl
@[simp] theorem loadCommand_eq (v : Word) : (s.loadCommand v).eq = s.eq := rfl
@[simp] theorem loadCommand_ovr (v : Word) : (s.loadCommand v).ovr = s.ovr := rfl
@[simp] theorem loadCommand_wign (v : Word) : (s.loadCommand v).wign = s.wign := rfl
@[simp] theorem loadCommand_errcode (v : Word) : (s.loadCommand v).errcode = .none := rfl
@[simp] theorem loadCommand_ie (v : Word) : (s.loadCommand v).ie = s.ie := rfl
@[simp] theorem loadCommand_seq (v : Word) : (s.loadCommand v).seq = .busy v := rfl
@[simp] theorem loadCommand_smul (v : Word) : (s.loadCommand v).smul = none := rfl
@[simp] theorem loadCommand_rst (v : Word) : (s.loadCommand v).rst = false := rfl
@[simp] theorem loadCommand_response (v : Word) : (s.loadCommand v).response = s.response := rfl
@[simp] theorem loadCommand_events (v : Word) : (s.loadCommand v).events = .complete :: s.events := rfl

/-! ### setR and apply -/

@[simp] theorem setR_build (r : Point) : (s.setR r).build = s.build := by cases r <;> rfl
@[simp] theorem setR_px (r : Point) : (s.setR r).px = s.px := by cases r <;> rfl
@[simp] theorem setR_py (r : Point) : (s.setR r).py = s.py := by cases r <;> rfl
@[simp] theorem setR_pinf (r : Point) : (s.setR r).pinf = s.pinf := by cases r <;> rfl
@[simp] theorem setR_qx (r : Point) : (s.setR r).qx = s.qx := by cases r <;> rfl
@[simp] theorem setR_qy (r : Point) : (s.setR r).qy = s.qy := by cases r <;> rfl
@[simp] theorem setR_qinf (r : Point) : (s.setR r).qinf = s.qinf := by cases r <;> rfl
@[simp] theorem setR_k (r : Point) : (s.setR r).k = s.k := by cases r <;> rfl
@[simp] theorem setR_cmd (r : Point) : (s.setR r).cmd = s.cmd := by cases r <;> rfl
@[simp] theorem setR_done (r : Point) : (s.setR r).done = s.done := by cases r <;> rfl
@[simp] theorem setR_eq (r : Point) : (s.setR r).eq = s.eq := by cases r <;> rfl
@[simp] theorem setR_ovr (r : Point) : (s.setR r).ovr = s.ovr := by cases r <;> rfl
@[simp] theorem setR_wign (r : Point) : (s.setR r).wign = s.wign := by cases r <;> rfl
@[simp] theorem setR_errcode (r : Point) : (s.setR r).errcode = s.errcode := by cases r <;> rfl
@[simp] theorem setR_ie (r : Point) : (s.setR r).ie = s.ie := by cases r <;> rfl
@[simp] theorem setR_seq (r : Point) : (s.setR r).seq = s.seq := by cases r <;> rfl
@[simp] theorem setR_smul (r : Point) : (s.setR r).smul = s.smul := by cases r <;> rfl
@[simp] theorem setR_rst (r : Point) : (s.setR r).rst = s.rst := by cases r <;> rfl
@[simp] theorem setR_response (r : Point) : (s.setR r).response = s.response := by cases r <;> rfl
@[simp] theorem setR_events (r : Point) : (s.setR r).events = s.events := by cases r <;> rfl
@[simp] theorem apply_build (w : Commit) : (s.apply w).build = s.build := by rcases w with r | _ | _ <;> first | rfl | exact setR_build s r
@[simp] theorem apply_px (w : Commit) : (s.apply w).px = s.px := by rcases w with r | _ | _ <;> first | rfl | exact setR_px s r
@[simp] theorem apply_py (w : Commit) : (s.apply w).py = s.py := by rcases w with r | _ | _ <;> first | rfl | exact setR_py s r
@[simp] theorem apply_pinf (w : Commit) : (s.apply w).pinf = s.pinf := by rcases w with r | _ | _ <;> first | rfl | exact setR_pinf s r
@[simp] theorem apply_qx (w : Commit) : (s.apply w).qx = s.qx := by rcases w with r | _ | _ <;> first | rfl | exact setR_qx s r
@[simp] theorem apply_qy (w : Commit) : (s.apply w).qy = s.qy := by rcases w with r | _ | _ <;> first | rfl | exact setR_qy s r
@[simp] theorem apply_qinf (w : Commit) : (s.apply w).qinf = s.qinf := by rcases w with r | _ | _ <;> first | rfl | exact setR_qinf s r
@[simp] theorem apply_k (w : Commit) : (s.apply w).k = s.k := by rcases w with r | _ | _ <;> first | rfl | exact setR_k s r
@[simp] theorem apply_cmd (w : Commit) : (s.apply w).cmd = s.cmd := by rcases w with r | _ | _ <;> first | rfl | exact setR_cmd s r
@[simp] theorem apply_done (w : Commit) : (s.apply w).done = s.done := by rcases w with r | _ | _ <;> first | rfl | exact setR_done s r
@[simp] theorem apply_ovr (w : Commit) : (s.apply w).ovr = s.ovr := by rcases w with r | _ | _ <;> first | rfl | exact setR_ovr s r
@[simp] theorem apply_wign (w : Commit) : (s.apply w).wign = s.wign := by rcases w with r | _ | _ <;> first | rfl | exact setR_wign s r
@[simp] theorem apply_errcode (w : Commit) : (s.apply w).errcode = s.errcode := by rcases w with r | _ | _ <;> first | rfl | exact setR_errcode s r
@[simp] theorem apply_ie (w : Commit) : (s.apply w).ie = s.ie := by rcases w with r | _ | _ <;> first | rfl | exact setR_ie s r
@[simp] theorem apply_seq (w : Commit) : (s.apply w).seq = s.seq := by rcases w with r | _ | _ <;> first | rfl | exact setR_seq s r
@[simp] theorem apply_smul (w : Commit) : (s.apply w).smul = s.smul := by rcases w with r | _ | _ <;> first | rfl | exact setR_smul s r
@[simp] theorem apply_rst (w : Commit) : (s.apply w).rst = s.rst := by rcases w with r | _ | _ <;> first | rfl | exact setR_rst s r
@[simp] theorem apply_response (w : Commit) : (s.apply w).response = s.response := by rcases w with r | _ | _ <;> first | rfl | exact setR_response s r
@[simp] theorem apply_events (w : Commit) : (s.apply w).events = s.events := by rcases w with r | _ | _ <;> first | rfl | exact setR_events s r

/-! ### assertReset -/

@[simp] theorem assertReset_build : s.assertReset.build = s.build := rfl
@[simp] theorem assertReset_px : s.assertReset.px = List.replicate s.build.curve.words 0#32 := rfl
@[simp] theorem assertReset_py : s.assertReset.py = List.replicate s.build.curve.words 0#32 := rfl
@[simp] theorem assertReset_pinf : s.assertReset.pinf = true := rfl
@[simp] theorem assertReset_qx : s.assertReset.qx = List.replicate s.build.curve.words 0#32 := rfl
@[simp] theorem assertReset_qy : s.assertReset.qy = List.replicate s.build.curve.words 0#32 := rfl
@[simp] theorem assertReset_qinf : s.assertReset.qinf = true := rfl
@[simp] theorem assertReset_k : s.assertReset.k = List.replicate s.build.curve.words 0#32 := rfl
@[simp] theorem assertReset_rx : s.assertReset.rx = List.replicate s.build.curve.words 0#32 := rfl
@[simp] theorem assertReset_ry : s.assertReset.ry = List.replicate s.build.curve.words 0#32 := rfl
@[simp] theorem assertReset_rinf : s.assertReset.rinf = true := rfl
@[simp] theorem assertReset_cmd : s.assertReset.cmd = 0#32 := rfl
@[simp] theorem assertReset_done : s.assertReset.done = false := rfl
@[simp] theorem assertReset_eq : s.assertReset.eq = false := rfl
@[simp] theorem assertReset_ovr : s.assertReset.ovr = false := rfl
@[simp] theorem assertReset_wign : s.assertReset.wign = false := rfl
@[simp] theorem assertReset_errcode : s.assertReset.errcode = .none := rfl
@[simp] theorem assertReset_ie : s.assertReset.ie = false := rfl
@[simp] theorem assertReset_seq : s.assertReset.seq = .idle := rfl
@[simp] theorem assertReset_smul : s.assertReset.smul = none := rfl
@[simp] theorem assertReset_rst : s.assertReset.rst = true := rfl
@[simp] theorem assertReset_response : s.assertReset.response = s.response := rfl
@[simp] theorem assertReset_events : s.assertReset.events = s.events := rfl

theorem assertReset_eq_heldInReset : s.assertReset = s.heldInReset := rfl

/-! ### The computed flags -/

@[simp] theorem busy_idle (h : s.seq = .idle) : s.busy = false := by simp [State.busy, h]
@[simp] theorem busy_busy {v : Word} (h : s.seq = .busy v) : s.busy = true := by simp [State.busy, h]

theorem busy_iff : s.busy = true ↔ ∃ v, s.seq = .busy v := by
  cases h : s.seq <;> simp [State.busy, h]

end Fields

end Sys2Proof.Machine
end

