-- ==== Sys2Proof/Laws/Words.lean ====
section
/-! SUPPORT. Words of big registers (R11): the integer a register holds, writing an integer, writing a word. -/

namespace Sys2Proof.Machine

@[simp] theorem bigOfNat_length (n v : Nat) : (bigOfNat n v).length = n := by
  induction n generalizing v with
  | zero => rfl
  | succ n ih => simp [bigOfNat, ih]

theorem uint_lt (X : BigReg) : uint X < 2 ^ (32 * X.length) := by
  induction X with
  | nil => simp [uint]
  | cons w ws ih =>
    have hw := w.isLt
    have hpow : 2 ^ (32 * (w :: ws).length) = 2 ^ 32 * 2 ^ (32 * ws.length) := by
      rw [← pow_add]; congr 1; simp [List.length_cons]; ring
    rw [hpow, uint]
    have : 2 ^ 32 * (uint ws + 1) ≤ 2 ^ 32 * 2 ^ (32 * ws.length) := Nat.mul_le_mul_left _ ih
    omega

/-- R11: the register holds the integer written, within its width. -/
theorem uint_bigOfNat (n v : Nat) : uint (bigOfNat n v) = v % 2 ^ (32 * n) := by
  induction n generalizing v with
  | zero => simp [bigOfNat, uint, Nat.mod_one]
  | succ n ih =>
    have hpow : 2 ^ (32 * (n + 1)) = 2 ^ 32 * 2 ^ (32 * n) := by rw [← pow_add]; congr 1; ring
    rw [bigOfNat, uint, ih, BitVec.toNat_ofNat, hpow, Nat.mod_mul]

@[simp] theorem uint_replicate_zero (n : Nat) : uint (List.replicate n 0#32) = 0 := by
  induction n with
  | zero => rfl
  | succ n ih => simp [List.replicate_succ, uint, ih]

/-- A register is determined by its integer and its length. -/
theorem bigOfNat_uint (X : BigReg) : bigOfNat X.length (uint X) = X := by
  induction X with
  | nil => rfl
  | cons w ws ih =>
    have hw := w.isLt
    have h1 : (w.toNat + 2 ^ 32 * uint ws) / 2 ^ 32 = uint ws := by omega
    rw [List.length_cons, uint, bigOfNat, h1, ih]
    congr 1
    apply BitVec.eq_of_toNat_eq
    rw [BitVec.toNat_ofNat]
    omega

/-- R11: word `i` of an integer written. -/
theorem getWord_bigOfNat {n i : Nat} (v : Nat) (h : i < n) : getWord (bigOfNat n v) i = BitVec.ofNat 32 (wordOf v i) := by
  induction n generalizing v i with
  | zero => omega
  | succ n ih =>
    cases i with
    | zero =>
      apply BitVec.eq_of_toNat_eq
      simp [getWord, bigOfNat, wordOf]
    | succ i =>
      have := ih (v / 2 ^ 32) (by omega : i < n)
      simp only [getWord, bigOfNat, List.getD_cons_succ] at this ⊢
      rw [this, wordOf, wordOf, Nat.div_div_eq_div_mul, ← pow_add, show 32 + 32 * i = 32 * (i + 1) by ring]

@[simp] theorem setWord_length (X : BigReg) (i : Nat) (v : Word) : (setWord X i v).length = X.length := by
  simp [setWord]

theorem getWord_setWord_same {X : BigReg} {i : Nat} (v : Word) (h : i < X.length) : getWord (setWord X i v) i = v := by
  simp [getWord, setWord, List.getD_eq_getElem?_getD, h]

theorem getWord_setWord_other {X : BigReg} {i j : Nat} (v : Word) (h : i ≠ j) :
    getWord (setWord X i v) j = getWord X j := by
  simp [getWord, setWord, List.getD_eq_getElem?_getD, List.getElem?_set_ne h]

/-- A reduced value fits a register of a valid build. -/
theorem uint_regOf {c : CurveParams} {v : Nat} (h : v < c.radix) : uint (regOf c v) = v := by
  rw [regOf, uint_bigOfNat]
  exact Nat.mod_eq_of_lt h

@[simp] theorem regOf_length (c : CurveParams) (v : Nat) : (regOf c v).length = c.words := bigOfNat_length _ _

end Sys2Proof.Machine
end

