-- ==== Sys2Proof/Laws/Ops.lean ====
section
/-! SUPPORT. What the shared operations can do, said once each: the end of a command (R14), every command's rule as one
equation, the port's accesses (R63, R68), an iteration (R44), a step (R72). -/

namespace Sys2Proof.Machine

/-! ### Commands -/

theorem finish_cases {s t : State} {r : Except ErrCode Commit} (h : s.finish r = .next t) :
    (∃ w, r = .ok w ∧ t = s.complete w) ∨ (∃ e, r = .error e ∧ t = s.raiseError e) := by
  cases r with
  | ok w    => exact .inl ⟨w, rfl, by simpa [State.finish] using h.symm⟩
  | error e => exact .inr ⟨e, rfl, by simpa [State.finish] using h.symm⟩

theorem finish_total (s : State) (r : Except ErrCode Commit) : ∃ t, s.finish r = .next t := by
  cases r <;> exact ⟨_, rfl⟩

/-- R142. -/
theorem checkP_eq (s : State) :
    checkP s = if pointInRange s.build.curve.p s.ptP then .ok () else .error .range := rfl

/-- R110. -/
theorem execFadd_eq (s : State) : exec .fadd s =
    if s.fieldA < s.build.curve.p ∧ s.fieldB < s.build.curve.p then
      .next (s.complete (.field (fadd s.build.curve.p s.fieldA s.fieldB)))
    else .next (s.raiseError .range) := by
  by_cases hA : s.fieldA < s.build.curve.p <;> by_cases hB : s.fieldB < s.build.curve.p <;>
    simp [exec, execFadd, checkAB, inRange, hA, hB, State.finish, bind, Except.bind, pure, Except.pure]

/-- R111. -/
theorem execFsub_eq (s : State) : exec .fsub s =
    if s.fieldA < s.build.curve.p ∧ s.fieldB < s.build.curve.p then
      .next (s.complete (.field (fsub s.build.curve.p s.fieldA s.fieldB)))
    else .next (s.raiseError .range) := by
  by_cases hA : s.fieldA < s.build.curve.p <;> by_cases hB : s.fieldB < s.build.curve.p <;>
    simp [exec, execFsub, checkAB, inRange, hA, hB, State.finish, bind, Except.bind, pure, Except.pure]

/-- R112. -/
theorem execFmul_eq (s : State) : exec .fmul s =
    if s.fieldA < s.build.curve.p ∧ s.fieldB < s.build.curve.p then
      .next (s.complete (.field (fmul s.build.curve.p s.fieldA s.fieldB)))
    else .next (s.raiseError .range) := by
  by_cases hA : s.fieldA < s.build.curve.p <;> by_cases hB : s.fieldB < s.build.curve.p <;>
    simp [exec, execFmul, checkAB, inRange, hA, hB, State.finish, bind, Except.bind, pure, Except.pure]

/-- R113. -/
theorem execFmont_eq (s : State) : exec .fmont s =
    if s.fieldA < s.build.curve.p ∧ s.fieldB < s.build.curve.p then
      .next (s.complete (.field (fmont s.build.curve s.fieldA s.fieldB)))
    else .next (s.raiseError .range) := by
  by_cases hA : s.fieldA < s.build.curve.p <;> by_cases hB : s.fieldB < s.build.curve.p <;>
    simp [exec, execFmont, checkAB, inRange, hA, hB, State.finish, bind, Except.bind, pure, Except.pure]

/-- R114. -/
theorem execFinv_eq (s : State) : exec .finv s =
    if s.fieldA < s.build.curve.p then
      match finv s.build.curve.p s.fieldA with
      | none   => .next (s.raiseError .inv0)
      | some r => .next (s.complete (.field r))
    else .next (s.raiseError .range) := by
  by_cases hA : s.fieldA < s.build.curve.p <;> cases hf : finv s.build.curve.p s.fieldA <;>
    simp [exec, execFinv, checkA, inRange, hA, hf, State.finish, bind, Except.bind, pure, Except.pure, throw,
      throwThe, MonadExceptOf.throw]

/-- R145. -/
theorem execPneg_eq (s : State) : exec .pneg s =
    if pointInRange s.build.curve.p s.ptP = true then .next (s.complete (.point (pneg s.build.curve.p s.ptP)))
    else .next (s.raiseError .range) := by
  by_cases hP : pointInRange s.build.curve.p s.ptP = true <;>
    simp [exec, execPneg, checkP, hP, State.finish, bind, Except.bind, pure, Except.pure]

/-- R160. -/
theorem execPdbl_eq (s : State) : exec .pdbl s =
    if pointInRange s.build.curve.p s.ptP = true then s.finish ((pdbl s.build.curve s.ptP).map .point)
    else .next (s.raiseError .range) := by
  by_cases hP : pointInRange s.build.curve.p s.ptP = true <;> cases hr : pdbl s.build.curve s.ptP <;>
    simp [exec, execPdbl, checkP, hP, hr, State.finish, bind, Except.bind, pure, Except.pure, Except.map]

/-- R150. -/
theorem execPadd_eq (s : State) : exec .padd s =
    if pointInRange s.build.curve.p s.ptP = true ∧ pointInRange s.build.curve.p s.ptQ = true then
      s.finish ((padd s.build.curve s.ptP s.ptQ).map .point)
    else .next (s.raiseError .range) := by
  by_cases hP : pointInRange s.build.curve.p s.ptP = true <;>
    by_cases hQ : pointInRange s.build.curve.p s.ptQ = true <;> cases hr : padd s.build.curve s.ptP s.ptQ <;>
      simp [exec, execPadd, checkP, checkQ, hP, hQ, hr, State.finish, bind, Except.bind, pure, Except.pure, Except.map]

/-- R181, from the loop's stage (R44). -/
theorem execPsmul_eq (s : State) : exec .psmul s =
    if pointInRange s.build.curve.p s.ptP = true then
      s.finish ((psmulFrom s.build.curve s.ptP (uint s.k) s.loopState.remaining s.loopState.acc).map .point)
    else .next (s.raiseError .range) := by
  by_cases hP : pointInRange s.build.curve.p s.ptP = true <;>
    cases hr : psmulFrom s.build.curve s.ptP (uint s.k) s.loopState.remaining s.loopState.acc <;>
      simp [exec, execPsmul, checkP, hP, hr, State.finish, bind, Except.bind, pure, Except.pure, Except.map]

/-- R201. -/
theorem execPeq_eq (s : State) : exec .peq s =
    if pointInRange s.build.curve.p s.ptP = true ∧ pointInRange s.build.curve.p s.ptQ = true then
      .next (s.complete (.equal (peq s.ptP s.ptQ)))
    else .next (s.raiseError .range) := by
  by_cases hP : pointInRange s.build.curve.p s.ptP = true <;>
    by_cases hQ : pointInRange s.build.curve.p s.ptQ = true <;>
      simp [exec, execPeq, checkP, checkQ, hP, hQ, State.finish, bind, Except.bind, pure, Except.pure]

/-- Every command is a `finish` of what its pseudocode came to. -/
theorem exec_is_finish (i : Instr) (s : State) : ∃ r, exec i s = s.finish r := by
  cases i <;> exact ⟨_, rfl⟩

/-- What any command can do: commit a result, or report a code. -/
theorem exec_cases {i : Instr} {s t : State} (h : exec i s = .next t) :
    (∃ w, t = s.complete w) ∨ (∃ e, t = s.raiseError e) := by
  obtain ⟨r, hr⟩ := exec_is_finish i s
  rw [hr] at h
  obtain ⟨w, -, hw⟩ | ⟨e, -, he⟩ := finish_cases h
  · exact .inl ⟨w, hw⟩
  · exact .inr ⟨e, he⟩

/-- What the completion step can do (R141). -/
theorem completionStep_cases {s t : State} (h : s.completionStep = .next t) :
    (s.inFlight = none ∧ t = s) ∨
      (∃ v, s.inFlight = some v ∧ ((∃ why, decode v = .illegal why ∧ t = s.raiseError .illegal) ∨
        ∃ i, decode v = .command i ∧ exec i s = .next t)) := by
  unfold State.completionStep at h
  cases hv : s.inFlight with
  | none => rw [hv] at h; exact .inl ⟨rfl, by simpa using h.symm⟩
  | some v =>
    rw [hv] at h
    refine .inr ⟨v, rfl, ?_⟩
    cases hd : decode v with
    | illegal why => simp only [hd] at h; exact .inl ⟨why, rfl, by simpa using h.symm⟩
    | command i => simp only [hd] at h; exact .inr ⟨i, rfl, h⟩

theorem inFlight_some {s : State} {v : Word} (h : s.inFlight = some v) : s.rst = false ∧ s.seq = .busy v := by
  cases hr : s.rst <;> cases hq : s.seq <;> simp_all [State.inFlight]

/-! ### The port -/

/-- What an access can do (R63). -/
theorem access_cases {s t : State} {addr size : Nat} {act : Nat → State} (h : s.access addr size act = .next t) :
    ∃ off, windowOffset s.build addr = some off ∧ size = 4 ∧ t = act off := by
  unfold State.access at h
  cases ho : windowOffset s.build addr with
  | none => simp [ho] at h
  | some off =>
    rw [ho] at h
    by_cases hs : size = 4
    · exact ⟨off, rfl, hs, by simpa [hs] using h.symm⟩
    · simp [hs] at h

theorem windowOffset_base {b : Build} {off : Nat} (h : off < 4096) : windowOffset b (b.base + off) = some off := by
  unfold windowOffset
  rw [if_pos (by omega)]
  simp

theorem windowOffset_lt {b : Build} {addr off : Nat} (h : windowOffset b addr = some off) :
    off < 4096 ∧ addr = b.base + off := by
  unfold windowOffset at h
  split at h
  · have := Option.some.inj h; omega
  · simp at h

/-- A write of the CMD register (R140, R229). -/
theorem writeCmd_cases (s : State) (v : Word) :
    ((∃ u, s.seq = .busy u) ∧ s.writeCmd v = { s with ovr := true }) ∨ (s.seq = .idle ∧ s.writeCmd v = s.accept v) := by
  cases h : s.seq <;> simp [State.writeCmd, h]

/-- What a write can do, by target (R68). -/
theorem writeTarget_cases (s : State) (v : Word) (T : Target) :
    (T = .cmd ∧ s.writeTarget v T = s.writeCmd v) ∨
    (T = .status ∧ s.writeTarget v T = s.writeStatus v) ∨
    (T = .intctl ∧ s.writeTarget v T = { s with ie := v.getLsbD 0 }) ∨
    (T = .pinf ∧ s.writeTarget v T = s.gated { s with pinf := v.getLsbD 0 }) ∨
    (T = .qinf ∧ s.writeTarget v T = s.gated { s with qinf := v.getLsbD 0 }) ∨
    (∃ X i, T = .big X i ∧ X.isOperand = true ∧ i < s.build.curve.words ∧
      s.writeTarget v T = s.gated (s.putBig X (setWord (s.big X) i v))) ∨
    (T ≠ .cmd ∧ T ≠ .status ∧ T ≠ .intctl ∧ T ≠ .pinf ∧ T ≠ .qinf ∧
      (∀ X i, T = .big X i → X.isOperand = true → ¬ i < s.build.curve.words) ∧ s.writeTarget v T = s) := by
  cases T with
  | big X i =>
    by_cases hw : X.isOperand = true ∧ i < s.build.curve.words
    · exact .inr (.inr (.inr (.inr (.inr (.inl ⟨X, i, rfl, hw.1, hw.2, by simp [State.writeTarget, hw]⟩)))))
    · refine .inr (.inr (.inr (.inr (.inr (.inr ⟨by simp, by simp, by simp, by simp, by simp, ?_, ?_⟩)))))
      · rintro X' i' h hX hi
        cases h
        exact hw ⟨hX, hi⟩
      · simp only [State.writeTarget, if_neg hw]
  | _ => simp [State.writeTarget]

@[simp] theorem gated_idle {s s' : State} (h : s.seq = .idle) : s.gated s' = s' := by simp [State.gated, State.busy, h]

@[simp] theorem gated_busy {s s' : State} {v : Word} (h : s.seq = .busy v) : s.gated s' = { s with wign := true } := by
  simp [State.gated, State.busy, h]

/-- The words of a big register's slot are where R61 and R62 put them. -/
theorem targetOf_offset (X : BigName) {i : Nat} (h : i < 32) : targetOf (X.offset i) = .big X i := by
  cases X <;> (simp only [BigName.offset, targetOf]; interval_cases i <;> rfl)

/-- Only bits 11:2 of an offset are decoded (R64). -/
theorem targetOf_aligned (off : Nat) : targetOf (off / 4 * 4 % 4096) = targetOf off := by
  have : off / 4 * 4 % 4096 % 4096 / 4 = off % 4096 / 4 := by omega
  simp only [targetOf, this]

/-- The address map (R61) by word number: which word names what. -/
theorem targetOf_cases (off : Nat) :
    (off % 4096 / 4 = 0 ∧ targetOf off = .id) ∨ (off % 4096 / 4 = 1 ∧ targetOf off = .cmd) ∨
    (off % 4096 / 4 = 2 ∧ targetOf off = .status) ∨ (off % 4096 / 4 = 3 ∧ targetOf off = .intctl) ∨
    (off % 4096 / 4 = 4 ∧ targetOf off = .pinf) ∨ (off % 4096 / 4 = 5 ∧ targetOf off = .qinf) ∨
    (off % 4096 / 4 = 6 ∧ targetOf off = .rinf) ∨
    (∃ X i, i < 32 ∧ off % 4096 / 4 = X.offset i / 4 ∧ targetOf off = .big X i) ∨
    (((7 ≤ off % 4096 / 4 ∧ off % 4096 / 4 < 64) ∨ 352 ≤ off % 4096 / 4) ∧ targetOf off = .reserved) := by
  have hlt : off % 4096 / 4 < 1024 := by omega
  unfold targetOf
  generalize off % 4096 / 4 = w at hlt
  by_cases hb : 64 ≤ w ∧ w < 352
  · refine .inr (.inr (.inr (.inr (.inr (.inr (.inr (.inl ⟨bigOfSlot ((w - 64) / 32), w % 32, by omega, ?_, ?_⟩)))))))
    · have : (w - 64) / 32 < 9 := by omega
      generalize hq : (w - 64) / 32 = q at this
      interval_cases q <;> simp only [bigOfSlot, BigName.offset] <;> omega
    · split <;> first | omega | simp [hb]
  · split
    all_goals first
      | exact .inr (.inr (.inr (.inr (.inr (.inr (.inr (.inr
          ⟨by simp only [imp_false] at *; omega, if_neg hb⟩)))))))
      | simp

/-! ### Iterations -/

/-- What a hidden iteration can do (R44): nothing, or one more stage of the loop. -/
theorem iterate_cases (s : State) : s.iterate = s ∨
    ∃ v i acc, s.seq = .busy v ∧ decode v = .command .psmul ∧ pointInRange s.build.curve.p s.ptP = true ∧
      s.loopState.remaining = i + 1 ∧ psmulStep s.build.curve s.ptP (uint s.k) i s.loopState.acc = .ok acc ∧
      s.iterate = { s with smul := some { remaining := i, acc := acc } } := by
  unfold State.iterate
  cases hq : s.seq with
  | idle => exact .inl rfl
  | busy v =>
    by_cases hc : decode v = .command .psmul ∧ pointInRange s.build.curve.p s.ptP = true
    · cases hn : s.loopState.remaining with
      | zero => exact .inl (by simp [hc])
      | succ i =>
        cases hs : psmulStep s.build.curve s.ptP (uint s.k) i s.loopState.acc with
        | error e => exact .inl (by simp [hc, hs])
        | ok acc => exact .inr ⟨v, i, acc, rfl, hc.1, hc.2, rfl, hs, by simp [hc, hs]⟩
    · exact .inl (by simp [hc])

/-! ### Steps -/

/-- What a step does: the next event, or the completion step when none is left (R72, R226). -/
theorem step_nil {s : State} (h : s.events = []) : step s = s.completionStep := by simp [step, h]

theorem step_cons {s : State} {e : Event} {es : List Event} (h : s.events = e :: es) :
    step s = (s.withEvents es).handle e := by simp [step, h, State.withEvents]

/-- A write of 4 bytes inside the window is a port write (R68). -/
theorem step_write {s : State} {off : Nat} {v : Word} {es : List Event} (ho : off < 4096)
    (h : s.events = .write (s.build.base + off) 4 v :: es) : step s = .next ((s.withEvents es).writeOff off v) := by
  rw [step_cons h]
  have hb : (s.withEvents es).build = s.build := rfl
  simp [State.handle, State.hostWrite, State.access, hb, windowOffset_base ho]

/-- A read of 4 bytes inside the window answers (R67). -/
theorem step_read {s : State} {off : Nat} {es : List Event} (ho : off < 4096)
    (h : s.events = .read (s.build.base + off) 4 :: es) :
    step s = .next { s with response := some (s.readOff off), events := es } := by
  rw [step_cons h]
  have hb : (s.withEvents es).build = s.build := rfl
  simp only [State.handle, State.hostRead, State.access, hb, windowOffset_base ho]
  rfl

/-- A loaded command is the one in flight, and the sequencer is next. -/
theorem step_loadCommand (s : State) (v : Word) :
    step (s.loadCommand v) = State.completionStep { s.accept v with rst := false } := by
  rfl

end Sys2Proof.Machine
end

