-- ==== Sys2Proof/Laws/Invariant.lean ====
section
/-! SUPPORT. What the invariant says of the hidden loop of a PSMUL, and what a hidden iteration leaves alone. -/

namespace Sys2Proof.Machine

theorem loopState_reduced {s : State} (hi : Inv s) : pointInRange s.build.curve.p s.loopState.acc = true := by
  unfold State.loopState
  cases h : s.smul with
  | none => rfl
  | some l => exact (hi.loop l h).reduced

/-- Finishing the loop from where it stands gives `psmul` (R180). -/
theorem loopState_sameEnd {s : State} (hi : Inv s) :
    psmulFrom s.build.curve s.ptP (uint s.k) s.loopState.remaining s.loopState.acc =
      psmul s.build.curve s.ptP (uint s.k) := by
  unfold State.loopState
  cases h : s.smul with
  | none => rfl
  | some l => exact (hi.loop l h).sameEnd

/-- A reduced point leaves R reduced. -/
theorem setR_reduced {s : State} (hv : s.build.curve.Valid) {q : Point} (hq : pointInRange s.build.curve.p q = true) :
    uint (s.setR q).rx < s.build.curve.p ∧ uint (s.setR q).ry < s.build.curve.p := by
  have hp := valid_p_lt_radix hv
  have h0 := valid_p_pos hv
  cases q with
  | identity => simp only [State.setR]; rw [uint_regOf (by omega)]; exact ⟨h0, h0⟩
  | affine x y =>
    obtain ⟨hx, hy⟩ := pointInRange_affine.mp hq
    simp only [State.setR]; rw [uint_regOf (by omega), uint_regOf (by omega)]; exact ⟨hx, hy⟩

/-- A hidden iteration changes nothing that a command's end shows (R43, R44). -/
theorem iterate_hidden (s : State) :
    s.iterate.rst = s.rst ∧ s.iterate.seq = s.seq ∧ (∀ e, s.iterate.raiseError e = s.raiseError e) ∧
      (∀ w, s.iterate.complete w = s.complete w) := by
  obtain h | ⟨v, i, acc, hq, hd, hP, hn, hs, h⟩ := iterate_cases s <;> rw [h]
  · simp
  · exact ⟨rfl, rfl, fun _ => rfl, fun w => by rcases w with q | _ | _ <;> first | rfl | (cases q <;> rfl)⟩

end Sys2Proof.Machine
end

