-- ==== Sys2Proof/Laws/PerInstr.lean ====
section
/-! SUPPORT. Statements made per command. -/

namespace Sys2Proof.Laws.WordOfTable

/-- The command's word is the match value of its row of R82, and the decoder reads the command from it. -/
def Statement (i : Instr) : Prop :=
  encode i = (match i with
    | .padd => 0x00000001#32
    | .pdbl => 0x00000002#32
    | .pneg => 0x00000003#32
    | .peq => 0x00000004#32
    | .psmul => 0x00000005#32
    | .fadd => 0x00000011#32
    | .fsub => 0x00000012#32
    | .fmul => 0x00000013#32
    | .fmont => 0x00000014#32
    | .finv => 0x00000015#32) ∧ decode (encode i) = .command i

theorem padd : Statement .padd := ⟨by decide, by decide⟩
theorem pdbl : Statement .pdbl := ⟨by decide, by decide⟩
theorem pneg : Statement .pneg := ⟨by decide, by decide⟩
theorem peq : Statement .peq := ⟨by decide, by decide⟩
theorem psmul : Statement .psmul := ⟨by decide, by decide⟩
theorem fadd : Statement .fadd := ⟨by decide, by decide⟩
theorem fsub : Statement .fsub := ⟨by decide, by decide⟩
theorem fmul : Statement .fmul := ⟨by decide, by decide⟩
theorem fmont : Statement .fmont := ⟨by decide, by decide⟩
theorem finv : Statement .finv := ⟨by decide, by decide⟩

end Sys2Proof.Laws.WordOfTable
end

