-- ==== Sys2Proof/Tests/Slice0.lean ====
section
/-! SUPPORT. The model's own tests. Expected values are those of spec file 95_test_vectors.md (V-… names a vector there)
and of the tables of R21, R32, R34, R37, R82; none was taken from the model. The last part holds one witness for each
obligation that has hypotheses. -/

namespace Sys2Proof.Tests

set_option Elab.async false

open Sys2Proof.Machine

/-! ### Small states -/

/-- TOY17 (95_test_vectors.md), with `WORDS = 1`; its CURVE_ID is the test's own. -/
def toy17 : CurveParams :=
  { p := 17, a := 2, b := 2, gx := 5, gy := 1, n := 19, words := 1, curveId := 15 }

def toyBuild : Build := { curve := toy17, base := 0x1000, irqLine := 3 }

def toy : State := State.resetOf toyBuild

/-- After reset on a catalog curve. -/
def on (e : CatalogEntry) : State := State.resetOf { curve := e.params, base := 0, irqLine := 0 }

def setP (P : Point) (s : State) : State :=
  match P with
  | .identity => { s with pinf := true }
  | .affine x y => { s with pinf := false, px := regOf s.build.curve x, py := regOf s.build.curve y }

def setQ (Q : Point) (s : State) : State :=
  match Q with
  | .identity => { s with qinf := true }
  | .affine x y => { s with qinf := false, qx := regOf s.build.curve x, qy := regOf s.build.curve y }

def setK (k : Nat) (s : State) : State := { s with k := regOf s.build.curve k }

def setAB (a b : Nat) (s : State) : State :=
  { s with px := regOf s.build.curve a, qx := regOf s.build.curve b }

/-- One step with the command in flight. -/
def runs (i : Instr) (s : State) : Host.Outcome State Fault Refusal := step (s.withFetchWord 32 (encode i).toNat)

def nextHas (o : Host.Outcome State Fault Refusal) (f : State → Bool) : Bool :=
  match o with
  | .next t => f t
  | .fault _ => false
  | .refused _ => false

/-- R is the point value, an identity with zero coordinates, and STATUS the word. -/
def hasR (r : Point) (status : Word) (t : State) : Bool :=
  decide (t.ptR = r) && (!t.rinf || uint t.rx == 0 && uint t.ry == 0) && t.statusWord == status

def hasRX (v : Nat) (status : Word) (t : State) : Bool := uint t.rx == v && t.statusWord == status

/-- A command in flight, and what is still to happen. -/
def busy (i : Instr) (es : List Event) (s : State) : State := { s.accept (encode i) with events := es }

def withEv (es : List Event) (s : State) : State := { s with events := es }

/-! ### WellFormed: each check refuses an ill-formed term -/

theorem test_wf_reserved_bits : commandWordLegal 0x00000101#32 = false := by decide
theorem test_wf_class : commandWordLegal 0x00000021#32 = false := by decide
theorem test_wf_function_low : commandWordLegal 0x00000010#32 = false := by decide
theorem test_wf_function_high : commandWordLegal 0x00000006#32 = false := by decide
theorem test_wf_legal : ∀ i ∈ [Instr.padd, .pdbl, .pneg, .peq, .psmul, .fadd, .fsub, .fmul, .fmont, .finv],
    commandWordLegal (encode i) = true ∧ i.wellFormed = true := by decide
theorem test_wf_curve : toy17.wellFormed = true := by decide
theorem test_wf_even_modulus : CurveParams.wellFormed { toy17 with p := 18 } = false := by decide
theorem test_wf_small_modulus : CurveParams.wellFormed { toy17 with p := 3, a := 1, b := 1 } = false := by decide
theorem test_wf_a_unreduced : CurveParams.wellFormed { toy17 with a := 17 } = false := by decide
theorem test_wf_b_unreduced : CurveParams.wellFormed { toy17 with b := 17 } = false := by decide
theorem test_wf_too_few_words : CurveParams.wellFormed { toy17 with p := 2 ^ 32 + 15 } = false := by decide
theorem test_wf_too_many_words : CurveParams.wellFormed { toy17 with words := 33 } = false := by decide +kernel
theorem test_wf_composite_modulus : ¬ CurveParams.Valid { toy17 with p := 15 } := fun h => absurd h.prime (by norm_num)
theorem test_wf_unaligned_base : Build.wellFormed { toyBuild with base := 0x1004 } = false := by decide
theorem test_wf_build : toyBuild.wellFormed = true := by decide
theorem test_select_none_or_several : Build.select [] 0 0 = none ∧ Build.select [.p256, .p521] 0 0 = none := by decide
theorem test_select_one : Build.select [.p256] 0 0 = some Build.default := by decide +kernel

theorem toy17_valid : toy17.Valid := ⟨by norm_num [toy17], by decide⟩
theorem toyBuild_valid : toyBuild.Valid := ⟨toy17_valid, by decide⟩

/-! ### Decoding: words written out from R80 (RSV, CLASS, FN) and R82 -/

theorem test_decode_point_commands :
    decode 0b000000000000000000000000_0000_0001#32 = .command .padd ∧
    decode 0b000000000000000000000000_0000_0010#32 = .command .pdbl ∧
    decode 0b000000000000000000000000_0000_0011#32 = .command .pneg ∧
    decode 0b000000000000000000000000_0000_0100#32 = .command .peq ∧
    decode 0b000000000000000000000000_0000_0101#32 = .command .psmul := by decide
theorem test_decode_field_commands :
    decode 0b000000000000000000000000_0001_0001#32 = .command .fadd ∧
    decode 0b000000000000000000000000_0001_0010#32 = .command .fsub ∧
    decode 0b000000000000000000000000_0001_0011#32 = .command .fmul ∧
    decode 0b000000000000000000000000_0001_0100#32 = .command .fmont ∧
    decode 0b000000000000000000000000_0001_0101#32 = .command .finv := by decide
/-- V-ENC-1 to V-ENC-7. -/
theorem test_decode_illegal :
    decode 0x00000000#32 = .illegal .unassignedOpcode ∧ decode 0x00000006#32 = .illegal .unassignedOpcode ∧
    decode 0x00000101#32 = .illegal .reservedBitsSet ∧ decode 0x00000010#32 = .illegal .unassignedOpcode ∧
    decode 0x00000016#32 = .illegal .unassignedOpcode ∧ decode 0xFFFFFFFF#32 = .illegal .reservedBitsSet ∧
    decode 0x80000015#32 = .illegal .reservedBitsSet := by decide
/-- R65: the byte at the lowest address is bits 7:0. -/
theorem test_decode_bytes :
    decodeBytes [0x14#8, 0#8, 0#8, 0#8] = .command .fmont ∧ decodeBytes [0#8, 0#8, 0#8, 0x14#8] = .illegal .reservedBitsSet ∧
    decodeBytes [0x14#8, 0#8] = .illegal .notOneWord := by decide
theorem test_decode_table_word :
    decodeTableWord 32 0x13 = some .fmul ∧ decodeTableWord 32 0x113 = none ∧ decodeTableWord 32 0x20 = none := by decide

/-! ### Commands -/

/-- V-PADD-1: G + 2G = 3G on P-256. -/
theorem test_padd_chord : nextHas (runs .padd (setP (.affine
      0x6B17D1F2E12C4247F8BCE6E563A440F277037D812DEB33A0F4A13945D898C296
      0x4FE342E2FE1A7F9B8EE7EB4A7C0F9E162BCE33576B315ECECBB6406837BF51F5) (setQ (.affine
      0x7CF27B188D034F7E8A52380304B51AC3C08969E277F21B35A60B48FC47669978
      0x07775510DB8ED040293D9AC69F7430DBBA7DADE63CE982299E04B79D227873D1) (on .p256))))
    (hasR (.affine 0x5ECBE4D1A6330A44C8F7EF951D4BF165E6C6B721EFADA985FB41661BC6E7FD6C
      0x8734640C4998FF7E374B06CE1A64A2ECD82AB036384FB83D9A79B127A27D5032) 0x00000002#32) = true := by decide +kernel
/-- V-PADD-8: equal x, different y, off the curve. -/
theorem test_padd_step3 : nextHas (runs .padd (setP (.affine 5 1) (setQ (.affine 5 2) toy)))
    (hasR .identity 0x00000012#32) = true := by decide +kernel
/-- V-PDBL-5: 2G on secp256k1, where `a = 0`. -/
theorem test_pdbl_tangent : nextHas (runs .pdbl (setP (.affine
      0x79BE667EF9DCBBAC55A06295CE870B07029BFCDB2DCE28D959F2815B16F81798
      0x483ADA7726A3C4655DA4FBFC0E1108A8FD17B448A68554199C47D08FFB10D4B8) (on .secp256k1)))
    (hasR (.affine 0xC6047F9441ED7D6D3045406E95C07CD85C778E4B8CEF3CA7ABAC09B95C709EE5
      0x1AE168FEA63DC339A3C58419466CEAEEF7F632653266D0E1236431A950CFE52A) 0x00000002#32) = true := by decide +kernel
/-- V-PDBL-3: `y = 0`. -/
theorem test_pdbl_y_zero : nextHas (runs .pdbl (setP (.affine 3 0) toy)) (hasR .identity 0x00000012#32) = true := by
  decide +kernel
/-- V-PNEG-7: 7G to 12G on TOY17. -/
theorem test_pneg_finite : nextHas (runs .pneg (setP (.affine 0 6) toy)) (hasR (.affine 0 11) 0x00000002#32) = true := by
  decide +kernel
/-- V-PNEG-6: an identity's coordinates are not checked. -/
theorem test_pneg_identity : nextHas (runs .pneg (setP .identity (setP (.affine (2 ^ 256 - 1) (2 ^ 256 - 1)) (on .p256))))
    (hasR .identity 0x00000012#32) = true := by decide +kernel
/-- V-PEQ-3: an identity's coordinates do not matter. -/
theorem test_peq_identities :
    nextHas (runs .peq (setP .identity (setP (.affine 1 0) (setQ .identity (setQ (.affine 2 0) (on .p256))))))
      (hasR .identity 0x0000001A#32) = true := by decide +kernel
/-- V-PEQ-6: a finite (0, 0) is not the identity. -/
theorem test_peq_zero_point : nextHas (runs .peq (setP (.affine 0 0) (on .p256))) (hasR .identity 0x00000012#32) = true := by
  decide +kernel
/-- V-PSMUL-23: an unreduced scalar, all 32 bits set. -/
theorem test_psmul_unreduced : nextHas (runs .psmul (setP (.affine 5 1) (setK (2 ^ 32 - 1) toy)))
    (hasR (.affine 9 16) 0x00000002#32) = true := by decide +kernel
/-- V-PSMUL-14: P is checked even for K = 0. -/
theorem test_psmul_range : nextHas (runs .psmul (setP (.affine curveP256.p 1) (on .p256)))
    (hasR .identity 0x00000216#32) = true := by decide +kernel
/-- V-FADD-2. -/
theorem test_fadd_wraps : nextHas (runs .fadd (setAB (curveP256.p - 1) (curveP256.p - 1) (on .p256)))
    (hasRX 0xFFFFFFFF00000001000000000000000000000000FFFFFFFFFFFFFFFFFFFFFFFD 0x00000012#32) = true := by decide +kernel
/-- V-FADD-5: B is checked as A is. -/
theorem test_fadd_range : nextHas (runs .fadd (setAB 0 curveP256.p (on .p256))) (hasRX 0 0x00000216#32) = true := by
  decide +kernel
/-- V-FSUB-1. -/
theorem test_fsub_wraps : nextHas (runs .fsub (setAB 0 1 (on .p256)))
    (hasRX 0xFFFFFFFF00000001000000000000000000000000FFFFFFFFFFFFFFFFFFFFFFFE 0x00000012#32) = true := by decide +kernel
/-- V-FSUB-4: A - B, not B - A. -/
theorem test_fsub_order : nextHas (runs .fsub (setAB curveP256.gx curveP256.gy (on .p256)))
    (hasRX 0x1B348F0FE311C2AC69D4FB9AE794A2DC4B354A29C2B9D4D228EAF8DDA0D970A1 0x00000012#32) = true := by decide +kernel
/-- V-FMUL-3. -/
theorem test_fmul : nextHas (runs .fmul (setAB curveP256.gx curveP256.gy (on .p256)))
    (hasRX 0x823CD15F6DD3C71933565064513A6B2BD183E554C6A08622F713EBBBFACE98BE 0x00000012#32) = true := by decide +kernel
/-- V-FMONT-2. -/
theorem test_fmont_p256 : nextHas (runs .fmont (setAB 2 3 (on .p256)))
    (hasRX 0xFFFFFFF900000012FFFFFFEE0000000C00000006FFFFFFF40000001200000005 0x00000012#32) = true := by decide +kernel
/-- V-FMONT-9: the radix of P-521 is 2^544, so Rinv = 2^498. -/
theorem test_fmont_p521 : nextHas (runs .fmont (setAB 1 1 (on .p521))) (hasRX (2 ^ 498) 0x00000012#32) = true := by
  decide +kernel
/-- V-FINV-8, with QX unreduced as in V-FINV-7. -/
theorem test_finv_secp256k1 : nextHas (runs .finv (setAB 2 (2 ^ 256 - 1) (on .secp256k1)))
    (hasRX 0x7FFFFFFFFFFFFFFFFFFFFFFFFFFFFFFFFFFFFFFFFFFFFFFFFFFFFFFF7FFFFE18 0x00000012#32) = true := by decide +kernel
/-- V-FINV-5 and V-FINV-6: INV0 for 0, RANGE for p. -/
theorem test_finv_errors : nextHas (runs .finv (on .p256)) (hasRX 0 0x00000316#32) = true ∧
    nextHas (runs .finv (setAB curveP256.p 0 (on .p256))) (hasRX 0 0x00000216#32) = true := by decide +kernel
/-- V-ENC-7: ILLEGAL before INV0. -/
theorem test_illegal_first : nextHas (step ((on .p256).withFetchWord 32 0x80000015)) (fun t =>
    t.statusWord == 0x00000116#32 && t.cmd == 0x80000015#32 && t.readOff 0x004 == 0x80000015#32) = true := by decide +kernel

/-! ### The port, the interrupt, reset -/

/-- V-PORT-3: PX word 8 of P-256 has no storage. -/
theorem test_port_unbacked_word : (on .p256).writeOff 0x120 5#32 = on .p256 ∧ (on .p256).readOff 0x120 = 0#32 := by
  decide +kernel
/-- V-PORT-4: offset bits 1:0 are ignored. -/
theorem test_port_low_bits : ((on .p256).writeOff 0x101 0xAABBCCDD#32).readOff 0x100 = 0xAABBCCDD#32 := by decide +kernel
/-- V-PORT-5: read-only registers. -/
theorem test_port_read_only : ((on .p256).writeOff 0x380 7#32) = on .p256 ∧ ((on .p256).writeOff 0x480 7#32) = on .p256 ∧
    ((on .p256).writeOff 0x000 7#32) = on .p256 := by decide +kernel
/-- V-PORT-6: only bit 0 of PINF is stored. -/
theorem test_port_pinf : ((on .p256).writeOff 0x010 0xFFFFFFFE#32).readOff 0x010 = 0#32 := by decide +kernel
/-- R65: byte 3 of PX word 0 is its bits 31:24. -/
theorem test_port_bytes : (toy.writeOff 0x100 0xAABBCCDD#32).readByte 0x103 = 0xAA#8 := by decide
/-- V-ERR-3: a CMD write while busy is dropped. -/
theorem test_overrun : nextHas (step (busy .psmul [.write 0x1004 4 1#32] toy)) (fun t =>
    t.ovr && t.cmd == 5#32 && decide (t.seq = .busy 5#32)) = true := by decide +kernel
/-- V-ERR-4: a K write while busy is dropped. -/
theorem test_operand_write_while_busy : nextHas (step (busy .psmul [.write 0x1300 4 3#32] (setK 2 toy))) (fun t =>
    t.wign && uint t.k == 2) = true := by decide +kernel
/-- V-ERR-6: a W1C write leaves ERRCODE. -/
theorem test_status_w1c : ({ toy with done := true, errcode := .inv0 }.writeOff 0x008 0xFFFFFFFF#32).statusWord =
    0x00000314#32 := by decide
/-- V-INT-1 and V-INT-3: a failed completion raises `irq`; acceptance lowers it. -/
theorem test_irq : nextHas (runs .finv { toy with ie := true }) (fun t =>
    t.irq && t.irqOutput == (3, true) && !(t.accept 2#32).irq) = true := by decide +kernel
/-- V-RST-1: the constants' words on P-256. -/
theorem test_reset_constants : (on .p256).readOff 0x000 = 0x10800100#32 ∧ (on .p256).readOff 0x498 = 0x00000001#32 ∧
    (on .p256).readOff 0x500 = 0x00000003#32 ∧ (on .p256).readOff 0x51C = 0x00000004#32 := by decide +kernel
/-- V-RST-3: word 1 of MONT_R2 on P-521, and its ID. -/
theorem test_reset_constants_p521 : (on .p521).readOff 0x504 = 0x00004000#32 ∧ (on .p521).readOff 0x000 = 0x11120209#32 ∧
    (on .p521).readOff 0x4C0 = 0x000001FF#32 := by decide +kernel
/-- V-RST-7: reset abandons a PSMUL in flight. -/
theorem test_reset_abandons : nextHas (step (busy .psmul [.assertReset] (setP (.affine 5 1) toy))) (fun t =>
    t == { toy with rst := true }) = true := by decide +kernel
/-- V-PSMUL-T, k = 1: the first iterations of a PSMUL are hidden, and the completion gives the same. -/
theorem test_iterate_hidden : nextHas (step { (busy .psmul [] (setP (.affine 5 1) (setK 1 toy))).iterate with events := [] })
    (hasR (.affine 5 1) 0x00000002#32) = true := by decide +kernel
/-- PROG-1's encoding: the first, the second and the last transactions of `LDP Gx, Gy; CMD PDBL`. -/
theorem test_program_encoding :
    let es := expandProgram Build.default [.ldp curveP256.gx curveP256.gy, .cmd .pdbl]
    es.take 2 = [.write 0x100 4 0xD898C296#32, .write 0x104 4 0xF4A13945#32] ∧
    es.drop 15 = [.write 0x19C 4 0x4FE342E2#32, .write 0x010 4 0#32, .write 0x004 4 2#32] := by decide +kernel

/-! ### Witnesses: each obligation's hypotheses hold together somewhere, each clause's at a boundary value -/

theorem toy_regs {s : State} (hb : s.build = toyBuild)
    (h : ∀ X ∈ [s.px, s.py, s.qx, s.qy, s.k, s.rx, s.ry], X.length = 1) : RegsFit s := by
  simp only [List.mem_cons, List.not_mem_nil, or_false, forall_eq_or_imp, forall_eq] at h
  obtain ⟨h1, h2, h3, h4, h5, h6, h7⟩ := h
  constructor <;> simp only [hb] <;> assumption

/-- A PSMUL in flight with operand P and scalar K, nothing of its loop run yet. -/
def toyPsmul (P : Point) (k : Nat) (es : List Event) : State := busy .psmul es (setP P (setK k toy))

theorem inv_of_toy {s : State} (hb : s.build = toyBuild)
    (h : ∀ X ∈ [s.px, s.py, s.qx, s.qy, s.k, s.rx, s.ry], X.length = 1) (hx : uint s.rx < 17) (hy : uint s.ry < 17)
    (he : s.errcode = .none) (hd : s.done = false) (hc : ∀ v, s.seq = .busy v → s.cmd = v) (hl : s.smul = none)
    (hr : s.rst = true → s = s.heldInReset) : Inv s where
  build := hb ▸ toyBuild_valid
  regs := toy_regs hb h
  rxReduced := by simpa [hb, toyBuild, toy17] using hx
  ryReduced := by simpa [hb, toyBuild, toy17] using hy
  noDenom0 := by simp [he]
  inFlight v hv := ⟨hc v hv, hd, he⟩
  loop l h := by simp [hl] at h
  reset := hr

theorem toy_inv : Inv toy :=
  inv_of_toy rfl (by decide) (by decide) (by decide) rfl rfl (fun _ h => nomatch h) rfl (fun h => nomatch h)

/-- Commands with operands at the ends of their range: `p - 1 = 16`, `p = 17`, `2^W - 1`. -/
theorem psmul_inv : Inv (toyPsmul (.affine 16 16) (2 ^ 32 - 1) [.iterate, .complete]) :=
  inv_of_toy rfl (by decide) (by decide) (by decide) rfl rfl (fun v h => by cases h; rfl) rfl (fun h => nomatch h)

theorem psmul_unreduced_inv : Inv (toyPsmul (.affine 16 17) 0 []) :=
  inv_of_toy rfl (by decide) (by decide) (by decide) rfl rfl (fun v h => by cases h; rfl) rfl (fun h => nomatch h)

theorem finv_inv : Inv (busy .finv [] toy) :=
  inv_of_toy rfl (by decide) (by decide) (by decide) rfl rfl (fun v h => by cases h; rfl) rfl (fun h => nomatch h)

theorem padd_inv : Inv (busy .padd [] (setP (.affine 16 16) (setQ (.affine 5 1) toy))) :=
  inv_of_toy rfl (by decide) (by decide) (by decide) rfl rfl (fun v h => by cases h; rfl) rfl (fun h => nomatch h)

theorem held_inv : Inv { toy with rst := true, events := [.releaseReset] } :=
  inv_of_toy rfl (by decide) (by decide) (by decide) rfl rfl (fun _ h => nomatch h) rfl (fun _ => rfl)

theorem toy_fits : RegsFit toy := toy_inv.regs

theorem witness_IllegalWordsCompleteWithIllegal :
    let s := { toy with seq := .busy 0x16#32 }
    s.rst = false ∧ s.seq = .busy 0x16#32 ∧ decode 0x16#32 = .illegal .unassignedOpcode ∧
      [0x00#32, 0x06#32, 0x10#32, 0x16#32, 0xFF#32, 0x100#32, 0xFFFFFFFF#32].all (fun v => !commandWordLegal v) = true ∧
      [0x01#32, 0x05#32, 0x11#32, 0x15#32].all commandWordLegal = true := by decide

theorem witness_StepRunsTheDecodedCommand :
    let s := busy .padd [] toy
    let u := busy .finv [.complete, .iterate] toy
    s.rst = false ∧ s.seq = .busy 1#32 ∧ decode 1#32 = .command .padd ∧ s.events = [] ∧
      u.rst = false ∧ u.seq = .busy 0x15#32 ∧ decode 0x15#32 = .command .finv ∧ u.events = [.complete, .iterate] := by decide

theorem witness_IdleEngineHoldsItsState : toy.seq = .idle ∧ toy.events = [] := by decide

theorem witness_BigRegisterIsSumOfItsWords :
    2 ^ 32 - 1 < 2 ^ toy17.width ∧ 0 < toy17.words ∧ (uint (regOf toy17 (2 ^ 32 - 1)) == 2 ^ 32 - 1) = true :=
  ⟨by decide, by decide, by rfl⟩

/-- Words 0 (stored), 1 and 31 (not stored) of a slot. -/
theorem witness_BigRegisterSlots : toy.build.curve.Valid ∧ RegsFit toy ∧ toy.rst = false ∧ toy.seq = .idle ∧
    BigName.px.isOperand = true ∧ 0 < toy.build.curve.words ∧ toy.build.curve.words ≤ 1 ∧ toy.build.curve.words ≤ 31 :=
  ⟨toy17_valid, toy_fits, by decide⟩

theorem witness_OperandWriteFrame :
    let s := withEv [.write 0x1300 4 7#32] toy
    s.build.curve.Valid ∧ RegsFit s ∧ s.rst = false ∧ s.seq = .idle ∧ BigName.k.isOperand = true ∧
      0 < s.build.curve.words ∧ s.events = [.write (s.build.base + BigName.k.offset 0) 4 7#32] :=
  ⟨toy17_valid, toy_regs rfl (by decide), by decide⟩

/-- The ends of both reserved ranges, read and written. -/
theorem witness_ReservedOffsetsAreInert : ∀ off ∈ [0x01C, 0x0FF, 0x580, 0xFFF],
    ((0x01C ≤ off ∧ off ≤ 0x0FF) ∨ (0x580 ≤ off ∧ off ≤ 0xFFF)) ∧
    (withEv [.read (0x1000 + off) 4] toy).events = [.read (toy.build.base + off) 4] ∧
    (withEv [.write (0x1000 + off) 4 9#32] toy).events = [.write (toy.build.base + off) 4 9#32] := by decide

theorem witness_OffsetLowBitsAreIgnored : ∀ off ∈ [0, 0x103, 4095], off < 4096 ∧
    (withEv [.read (0x1000 + off) 4] toy).events = [.read (toy.build.base + off) 4] ∧
    (withEv [.write (0x1000 + off) 4 9#32] toy).events = [.write (toy.build.base + off) 4 9#32] := by decide

theorem witness_AccessOfAnotherSizeIsRefused : ∀ size ∈ [0, 1, 2, 3, 5, 8], (4095 : Nat) < 4096 ∧ size ≠ 4 ∧
    (withEv [.read 0x1FFF size] toy).events = [.read (toy.build.base + 4095) size] ∧
    (withEv [.write 0x1FFF size 9#32] toy).events = [.write (toy.build.base + 4095) size 9#32] := by decide

theorem witness_AccessOutsideTheWindowFaults : ∀ addr ∈ [0, 0x0FFF, 0x2000],
    (addr < toy.build.base ∨ toy.build.base + 4096 ≤ addr) ∧
    (withEv [.read addr 4] toy).events = [.read addr 4] ∧ (withEv [.write addr 4 9#32] toy).events = [.write addr 4 9#32] := by
  decide

theorem witness_ReadsHaveNoSideEffects : (0x008 : Nat) < 4096 ∧
    (withEv [.read 0x1008 4, .read 0x1008 4, .complete] toy).events =
      [.read (toy.build.base + 0x008) 4, .read (toy.build.base + 0x008) 4, .complete] := by decide

/-- One offset for every clause: the ends of each range, and both states of the sequencer. -/
theorem witness_WriteEffectByTarget : toy.rst = false ∧ toy.seq = .idle ∧ (busy .padd [] toy).rst = false ∧
    (busy .padd [] toy).seq ≠ .idle ∧
    (0x007 / 4 * 4 = 0x004 ∧ 0x00B / 4 * 4 = 0x008 ∧ 0x00C / 4 * 4 = 0x00C ∧ 0x010 / 4 * 4 = 0x010 ∧ 0x017 / 4 * 4 = 0x014) ∧
    (0x103 / 4 * 4 = BigName.px.offset 0 ∧ BigName.px.isOperand = true ∧ 0 < toy.build.curve.words) ∧
    (0x37F / 4 * 4 = BigName.k.offset 31 ∧ toy.build.curve.words ≤ 31) ∧
    (0x380 / 4 * 4 = BigName.rx.offset 0 ∧ BigName.rx.isOperand = false ∧ 0x57F / 4 * 4 = BigName.montR2.offset 31) ∧
    (0x003 / 4 * 4 = 0x000 ∧ 0x018 / 4 * 4 = 0x018 ∧ 0x0FF / 4 * 4 ≤ 0x0FC ∧ 0x580 ≤ 0xFFF / 4 * 4) := by decide

theorem witness_StatusWordFields : toy.rst = false ∧ (11 : Nat) ≤ 31 := by decide

theorem witness_FlagRegistersStoreBitZero : toy.rst = false ∧ toy.seq = .idle := by decide

theorem witness_IdentificationAndModulus : toy.build.curve.Valid ∧ toy.rst = false ∧
    ∀ e ∈ [CatalogEntry.p256, .secp256k1, .p521], (on e).rst = false ∧ (on e).build.curve = e.params :=
  ⟨toy17_valid, rfl, by decide +kernel⟩

theorem witness_MontgomeryConstant : toy.build.curve.Valid ∧
    ∀ e ∈ [CatalogEntry.p256, .secp256k1, .p521], (on e).build.curve = e.params := ⟨toy17_valid, by decide +kernel⟩

theorem witness_NoStepChangesTheConstants :
    (∃ t, step (withEv [.write 0x1480 4 7#32] toy) = .next t ∧ t.rst = false) ∧ (withEv [.write 0x1480 4 7#32] toy).rst = false :=
  ⟨⟨_, rfl, rfl⟩, rfl⟩

theorem witness_CommandWriteIsAcceptedOrDropped :
    let s := withEv [.write 0x1004 4 1#32] toy
    let u := busy .psmul [.write 0x1004 4 1#32] toy
    let r := busy .psmul [.assertReset] toy
    (s.rst = false ∧ s.events = [.write (s.build.base + 0x004) 4 1#32] ∧ s.seq = .idle) ∧
    (u.rst = false ∧ u.events = [.write (u.build.base + 0x004) 4 1#32] ∧ u.seq = .busy 5#32) ∧
    (∃ t, step s = .next t ∧ t.cmd ≠ s.cmd) ∧ (∃ t, step r = .next t ∧ t.cmd ≠ r.cmd) :=
  ⟨by decide, by decide, ⟨_, rfl, by decide⟩, ⟨_, rfl, by decide⟩⟩

theorem witness_OverrunIsDroppedAndSticky :
    let u := busy .psmul [.write 0x1004 4 1#32] toy
    (u.rst = false ∧ u.seq = .busy 5#32 ∧ u.events = [.write (u.build.base + 0x004) 4 1#32]) ∧
    (∃ t, step { toy with ovr := true, events := [.write 0x1008 4 0x20#32] } = .next t ∧ t.ovr = false) ∧
    (∃ t, step { toy with ovr := true, events := [.assertReset] } = .next t ∧ t.ovr = false) :=
  ⟨by decide, ⟨_, rfl, rfl⟩, ⟨_, rfl, rfl⟩⟩

theorem witness_OperandWriteWhileBusyIsDroppedAndSticky :
    (∀ off ∈ [0x010, 0x017, 0x100, 0x303, 0x008, 0x00F, 0x000, 0x018, 0x01C, 0x0FF, 0x380, 0x57F, 0x580, 0xFFF],
      let u := busy .psmul [.write (0x1000 + off) 4 1#32] toy
      u.rst = false ∧ u.seq = .busy 5#32 ∧ off < 4096 ∧ u.events = [.write (u.build.base + off) 4 1#32]) ∧
    (BigName.px.isOperand = true ∧ 0x100 / 4 * 4 = BigName.px.offset 0 ∧ 0x303 / 4 * 4 = BigName.k.offset 0 ∧
      0 < toy.build.curve.words) ∧
    (BigName.rx.isOperand = false ∧ 0x380 / 4 * 4 = BigName.rx.offset 0 ∧ 0x57F / 4 * 4 = BigName.montR2.offset 31) ∧
    (∃ t, step { toy with wign := true, events := [.write 0x1008 4 0x40#32] } = .next t ∧ t.wign = false) ∧
    (∃ t, step { toy with wign := true, events := [.assertReset] } = .next t ∧ t.wign = false) :=
  ⟨by decide, by decide, by decide, ⟨_, rfl, rfl⟩, ⟨_, rfl, rfl⟩⟩

theorem witness_CommandInFlightIsUndisturbed : ∀ e ∈ [Event.write 0x1100 4 1#32, .read 0x1380 4, .iterate, .releaseReset],
    let s := busy .psmul [e] (setP (.affine 5 1) toy)
    s.rst = false ∧ s.seq = .busy 5#32 ∧ s.events = [e] ∧ e ≠ .complete ∧ e ≠ .assertReset ∧
      nextHas (step s) (fun _ => true) = true := by decide +kernel

theorem witness_EveryAcceptedCommandCompletes :
    let s := busy .psmul [.write 0x1100 4 1#32, .read 0x1FFF 4, .iterate, .releaseReset] (setP (.affine 5 1) toy)
    s.rst = false ∧ s.seq = .busy 5#32 ∧ ∀ e ∈ s.events, e.meaningful s.build = true ∧ e.noReset = true := by decide

theorem witness_HiddenIterationsDoNotMatter :
    let s := toyPsmul (.affine 16 16) (2 ^ 32 - 1) [.iterate, .complete]
    Inv s ∧ s.rst = false ∧ s.seq = .busy 5#32 := ⟨psmul_inv, by decide⟩

theorem witness_InterruptFollowsCompletion :
    let s := busy .finv [] toy
    (s.rst = false ∧ s.seq = .busy 0x15#32 ∧ ∃ t, s.completionStep = .next t) ∧
    ((0x62#32).getLsbD 1 = true ∧ toy.seq = .idle) ∧
    (∃ t, step s = .next t ∧ s.done = false ∧ t.done = true) :=
  ⟨⟨rfl, rfl, ⟨_, rfl⟩⟩, by decide, ⟨_, rfl, rfl, rfl⟩⟩

theorem witness_ResetValues : toyBuild.curve.Valid := toy17_valid

theorem witness_ResetTakesAndHoldsTheResetValues :
    (busy .psmul [.assertReset] toy).events = [.assertReset] ∧
    (let s := { toy with rst := true, events := [.releaseReset] }
     Inv s ∧ s.rst = true ∧ ∃ t, step s = .next t ∧ t.rst = false) :=
  ⟨rfl, held_inv, rfl, _, rfl, rfl⟩

theorem witness_PortDuringReset : ∀ off ∈ [0, 0x008, 4095],
    let s := { toy with rst := true, events := [.read (0x1000 + off) 4] }
    let u := { toy with rst := true, events := [.write (0x1000 + off) 4 1#32] }
    s.rst = true ∧ u.rst = true ∧ off < 4096 ∧ s.events = [.read (s.build.base + off) 4] ∧
      u.events = [.write (u.build.base + off) 4 1#32] := by decide

/-- For FADD, FSUB, FMUL and FMONT: both operands `p - 1`; then either operand `p`; FSUB's wrap. -/
theorem two_operands :
    toy.build.curve.Valid ∧ (let s := setAB 16 16 toy; uint s.px < s.build.curve.p ∧ uint s.qx < s.build.curve.p) ∧
    (let s := setAB 0 16 toy; uint s.px < uint s.qx) ∧
    (let s := setAB 17 0 toy; s.build.curve.p ≤ uint s.px) ∧ (let s := setAB 0 17 toy; s.build.curve.p ≤ uint s.qx) :=
  ⟨toy17_valid, by decide +kernel⟩

theorem witness_FaddResult : (setAB 16 16 toy).build.curve.Valid ∧
    nextHas (exec .fadd (setAB 16 16 toy)) (fun t => uint t.rx == 15) = true := ⟨toy17_valid, by decide +kernel⟩

theorem witness_FsubResult : (setAB 0 16 toy).build.curve.Valid ∧
    nextHas (exec .fsub (setAB 0 16 toy)) (fun t => uint t.rx == 1) = true := ⟨toy17_valid, by decide +kernel⟩

theorem witness_FmulResult : (setAB 16 16 toy).build.curve.Valid ∧
    nextHas (exec .fmul (setAB 16 16 toy)) (fun t => uint t.rx == 1) = true := ⟨toy17_valid, by decide +kernel⟩

/-- V-FMONT-10, and a number that R105 names: `Rinv = 1` on TOY17. -/
theorem witness_FmontResult : (setAB 5 7 toy).build.curve.Valid ∧ 1 ≤ 1 ∧ 1 < toy17.p ∧ 2 ^ toy17.width * 1 % toy17.p = 1 ∧
    nextHas (exec .fmont (setAB 5 7 toy)) (fun t => uint t.rx == 1) = true := ⟨toy17_valid, by decide +kernel⟩

/-- A at 1, 16, 0 and 17; V-FINV-10. -/
theorem witness_FinvResult : toy.build.curve.Valid ∧
    (∀ a ∈ [1, 16], 0 < uint (setAB a 0 toy).px ∧ uint (setAB a 0 toy).px < toy17.p) ∧
    uint (setAB 0 0 toy).px = 0 ∧ toy17.p ≤ uint (setAB 17 0 toy).px ∧
    nextHas (exec .finv (setAB 3 0 toy)) (fun t => uint t.rx == 6) = true := ⟨toy17_valid, by decide +kernel⟩

theorem witness_PnegResult : toy.build.curve.Valid ∧ (setP .identity toy).pinf = true ∧
    (let s := setP (.affine 16 0) toy; s.pinf = false ∧ uint s.px < toy17.p ∧ uint s.py < toy17.p) ∧
    (let s := setP (.affine 17 0) toy; s.pinf = false ∧ toy17.p ≤ uint s.px) ∧
    (let s := setP (.affine 0 17) toy; s.pinf = false ∧ toy17.p ≤ uint s.py) := ⟨toy17_valid, by decide +kernel⟩

/-- For PADD and PEQ: reduced operands, either identity, and each of the four coordinates at `p`. -/
theorem two_points :
    (∀ PQ ∈ [(Point.affine 16 16, Point.affine 0 0), (.identity, .affine 5 1), (.affine 5 1, .identity), (.identity, .identity)],
      let s := setP PQ.1 (setQ PQ.2 toy)
      pointInRange toy17.p s.ptP = true ∧ pointInRange toy17.p s.ptQ = true) ∧
    (∀ PQ ∈ [(Point.affine 17 0, Point.identity), (.affine 0 17, .identity), (.identity, .affine 17 0), (.identity, .affine 0 17)],
      let s := setP PQ.1 (setQ PQ.2 toy)
      (s.pinf = false ∧ (toy17.p ≤ uint s.px ∨ toy17.p ≤ uint s.py)) ∨
        (s.qinf = false ∧ (toy17.p ≤ uint s.qx ∨ toy17.p ≤ uint s.qy))) := by decide +kernel

/-- V-PADD-17. -/
theorem witness_PaddResult : (setP (.affine 16 13) (setQ (.affine 9 1) toy)).build.curve.Valid ∧
    nextHas (exec .padd (setP (.affine 16 13) (setQ (.affine 9 1) toy))) (fun t => decide (t.ptR = .affine 5 1)) = true :=
  ⟨toy17_valid, by decide +kernel⟩

/-- V-PDBL-8, and P at the ends of its range. -/
theorem witness_PdblResult : toy.build.curve.Valid ∧
    (∀ P ∈ [Point.identity, .affine 16 16, .affine 3 0], pointInRange toy17.p (setP P toy).ptP = true) ∧
    (let s := setP (.affine 17 0) toy; s.pinf = false ∧ toy17.p ≤ uint s.px) ∧
    nextHas (exec .pdbl (setP (.affine 0 6) toy)) (fun t => decide (t.ptR = .affine 9 1)) = true :=
  ⟨toy17_valid, by decide +kernel⟩

theorem witness_PsmulResult :
    (let s := toyPsmul (.affine 16 16) (2 ^ 32 - 1) [.iterate, .complete]; Inv s ∧ pointInRange s.build.curve.p s.ptP = true) ∧
    (let s := toyPsmul (.affine 16 17) 0 []; Inv s ∧ s.pinf = false ∧ s.build.curve.p ≤ uint s.py) :=
  ⟨⟨psmul_inv, by decide +kernel⟩, psmul_unreduced_inv, by decide +kernel⟩

theorem witness_PeqResult :
    nextHas (exec .peq (setP (.affine 16 16) (setQ (.affine 16 16) toy))) (fun t => t.eq) = true := by decide +kernel

/-- A completion with INV0, one with RANGE and one without error. -/
theorem witness_ErrorCodePrecedence :
    (let s := busy .finv [] toy; Inv s ∧ s.rst = false ∧ s.seq = .busy 0x15#32 ∧ ∃ t, s.completionStep = .next t) ∧
    (let s := toyPsmul (.affine 16 17) 0 []; Inv s ∧ s.rst = false ∧ s.seq = .busy 5#32 ∧ ∃ t, s.completionStep = .next t) ∧
    (let s := busy .padd [] (setP (.affine 16 16) (setQ (.affine 5 1) toy))
     Inv s ∧ s.rst = false ∧ s.seq = .busy 1#32 ∧ ∃ t, s.completionStep = .next t) :=
  ⟨⟨finv_inv, rfl, rfl, _, rfl⟩, ⟨psmul_unreduced_inv, rfl, rfl, _, rfl⟩, padd_inv, rfl, rfl, _, rfl⟩

theorem witness_FailedCommandWritesOnlyStatus :
    let s := busy .finv [.write 0x1004 4 1#32] toy
    s.rst = false ∧ s.seq = .busy 0x15#32 ∧ nextHas s.completionStep (fun t =>
      t.errcode != .none && t.events == [.write (t.build.base + 0x004) 4 1#32]) = true ∧ ¬ inStatus 0x00C ∧ ¬ inStatus 0x007 :=
  ⟨rfl, rfl, by decide +kernel, by simp [inStatus], by simp [inStatus]⟩

theorem witness_ZeroDenominatorIsUnreachable :
    (Inv (busy .padd [] (setP (.affine 16 16) (setQ (.affine 5 1) toy))) ∧
      ∃ t, exec .padd (busy .padd [] (setP (.affine 16 16) (setQ (.affine 5 1) toy))) = .next t) ∧
    toy17.Valid ∧ pointInRange toy17.p (.affine 16 16) = true ∧ pointInRange toy17.p (.affine 16 1) = true :=
  ⟨⟨padd_inv, _, rfl⟩, toy17_valid, by decide⟩

/-- Each command, once with success and once without; an offset outside RX and STATUS. -/
theorem witness_FieldCommandFrame : toy.build.curve.Valid ∧
    (∀ i ∈ [Instr.fadd, .fsub, .fmul, .fmont, .finv],
      nextHas (exec i (setAB 16 3 toy)) (fun t => t.errcode == .none) = true ∧
      nextHas (exec i (setAB 17 3 toy)) (fun t => t.errcode != .none) = true) ∧
    ¬ inRx 0x37F ∧ ¬ inRx 0x400 ∧ ¬ inStatus 0x37F ∧ ¬ inStatus 0x400 :=
  ⟨toy17_valid, by decide +kernel, by simp [inRx, inStatus]⟩

theorem witness_PointCommandFrame :
    (∀ i ∈ [Instr.padd, .pdbl, .pneg, .psmul],
      nextHas (exec i (setP (.affine 5 1) toy)) (fun t => t.errcode == .none) = true ∧
      nextHas (exec i (setP (.affine 5 17) toy)) (fun t => t.errcode != .none) = true) ∧
    ¬ inRx 0x480 ∧ ¬ inRy 0x480 ∧ ¬ inRinf 0x480 ∧ ¬ inStatus 0x480 :=
  ⟨by decide +kernel, by simp [inRx, inRy, inRinf, inStatus]⟩

theorem witness_PeqFrame :
    nextHas (exec .peq (setP (.affine 5 1) toy)) (fun t => t.errcode == .none) = true ∧
    nextHas (exec .peq (setP (.affine 5 17) toy)) (fun t => t.errcode != .none) = true ∧ ¬ inStatus 0x00C :=
  ⟨by decide +kernel, by decide +kernel, by simp [inStatus]⟩

/-- Two states that differ in QX, which FINV does not read, and in CMD. -/
theorem witness_CommandsReadOnlyTheirOperands :
    let s := setAB 2 3 toy
    let u := { setAB 2 17 toy with cmd := 9#32 }
    agreeOnOperands .finv s u ∧ s.rx = u.rx ∧ s.ry = u.ry ∧ s.rinf = u.rinf ∧ s.eq = u.eq ∧
      (∃ t, exec .finv s = .next t) ∧ ∃ t, exec .finv u = .next t :=
  ⟨⟨rfl, rfl⟩, rfl, rfl, rfl, rfl, ⟨_, rfl⟩, ⟨_, rfl⟩⟩

theorem witness_DoublingIsAddingToItself :
    let s := setP (.affine 5 1) toy
    (∃ t, exec .pdbl s = .next t) ∧ ∃ u, exec .padd s.copyPtoQ = .next u := ⟨⟨_, rfl⟩, ⟨_, rfl⟩⟩

/-- Points off the curve and at the end of the range. -/
theorem witness_AdditionLawsForReducedPoints : toy17.Valid ∧ pointInRange toy17.p (.affine 16 16) = true ∧
    pointInRange toy17.p (.affine 0 0) = true ∧ pointInRange toy17.p .identity = true := ⟨toy17_valid, by decide⟩

/-- V-PADD-10's points, the curve's own `b`. -/
theorem witness_AdditionIsAssociativeOnTheCurve : toy17.Valid ∧ nonSingular toy17 2 ∧ onCurve toy17 2 (.affine 5 1) ∧
    onCurve toy17 2 (.affine 6 3) ∧ onCurve toy17 2 (.affine 10 6) :=
  ⟨toy17_valid, by simp [nonSingular, toy17], by simp [onCurve, toy17], by simp [onCurve, toy17], by simp [onCurve, toy17]⟩

theorem witness_EqualityIsThatOfPointValues : toy17.Valid ∧ pointInRange toy17.p (.affine 5 1) = true ∧
    pointInRange toy17.p (.affine 6 3) = true ∧ padd toy17 (.affine 5 1) (.affine 6 3) = .ok (.affine 10 6) ∧
    padd toy17 (.affine 6 3) (.affine 5 1) = .ok (.affine 10 6) := ⟨toy17_valid, by decide, by decide, by rfl, by rfl⟩

theorem witness_MontgomeryDomainIdentities : toy17.Valid ∧ 16 < toy17.p ∧ 0 < toy17.p := ⟨toy17_valid, by decide, by decide⟩

theorem witness_WordSerialMultiplierConforms : toy17.Valid ∧ 16 < toy17.p := ⟨toy17_valid, by decide⟩

theorem witness_ScalarMultiplicationCornerCases : toy17.Valid ∧ pointInRange toy17.p (.affine 3 0) = true ∧
    2 ^ 32 - 1 < 2 ^ toy17.width ∧ (2 ^ 32 - 1) % 2 = 1 ∧ (2 ^ 32 - 2) % 2 = 0 ∧
    pdbl toy17 (.affine 3 0) = .ok .identity := ⟨toy17_valid, by decide, by decide, by decide, by decide, by rfl⟩

/-- On the curve with its own `b`, and V-PSMUL-OFF's point on the curve of `b' = 15`. -/
theorem witness_ScalarMultiplicationIsRepeatedAddition : toy17.Valid ∧
    (nonSingular toy17 2 ∧ onCurve toy17 2 (.affine 5 1)) ∧ (nonSingular toy17 15 ∧ onCurve toy17 15 (.affine 1 1)) ∧
    2 ^ 32 - 1 < 2 ^ toy17.width :=
  ⟨toy17_valid, ⟨by simp [nonSingular, toy17], by simp [onCurve, toy17]⟩,
    ⟨by simp [nonSingular, toy17], by simp [onCurve, toy17]⟩, by decide⟩

theorem witness_WriteBigLoadsTheRegister :
    let s := withEv (expandOp toyBuild (.wrb .px (2 ^ 32 - 1)) ++ [.complete]) toy
    s.build.curve.Valid ∧ RegsFit s ∧ s.rst = false ∧ s.seq = .idle ∧ BigName.px.isOperand = true ∧
      2 ^ 32 - 1 < 2 ^ s.build.curve.width ∧ s.events = expandOp s.build (.wrb .px (2 ^ 32 - 1)) ++ [.complete] :=
  ⟨toy17_valid, toy_regs rfl (by decide), rfl, rfl, rfl, by decide, rfl⟩

theorem witness_InvariantHoldsAtReset : toyBuild.Valid := toyBuild_valid

theorem witness_EveryStepKeepsTheInvariant :
    (let s := toyPsmul (.affine 16 16) (2 ^ 32 - 1) [.iterate, .complete]; Inv s ∧ ∃ t, step s = .next t) ∧
    (let s := busy .padd [] (setP (.affine 16 16) (setQ (.affine 5 1) toy)); Inv s ∧ ∃ t, step s = .next t) :=
  ⟨⟨psmul_inv, _, rfl⟩, padd_inv, _, rfl⟩

end Sys2Proof.Tests
end

