-- ==== Sys2Proof/Proofs/BigRegisters.lean ====
section
/-! PROOFS. A big register as the little-endian sum of its words (R11). -/

namespace Sys2Proof.Machine

@[simp] theorem getWord_cons_zero (w : Word) (ws : BigReg) : getWord (w :: ws) 0 = w := rfl

@[simp] theorem getWord_cons_succ (w : Word) (ws : BigReg) (i : Nat) : getWord (w :: ws) (i + 1) = getWord ws i := rfl

/-- R11: the model's recursion down the list of words is the spec's sum over their indices. -/
theorem uint_eq_sum (X : BigReg) :
    uint X = ∑ i ∈ Finset.range X.length, (getWord X i).toNat * 2 ^ (32 * i) := by
  induction X with
  | nil => rfl
  | cons w ws ih =>
    have shift (i : Nat) : (getWord ws i).toNat * 2 ^ (32 * (i + 1)) =
        2 ^ 32 * ((getWord ws i).toNat * 2 ^ (32 * i)) := by rw [Nat.mul_succ, pow_add]; ring
    rw [uint, List.length_cons, Finset.sum_range_succ', ih, Finset.mul_sum]
    simp only [getWord_cons_succ, getWord_cons_zero, shift, Nat.mul_zero, pow_zero, Nat.mul_one]
    exact Nat.add_comm ..

/-- The `i`-th base-`2^32` digit of an integer below `2^n` is bits `32i+31 : 32i` of its `n`-bit vector. -/
theorem ofNat_wordOf_eq_extractLsb' {n v : Nat} (hv : v < 2 ^ n) (i : Nat) :
    BitVec.ofNat 32 (wordOf v i) = (BitVec.ofNat n v).extractLsb' (32 * i) 32 := by
  apply BitVec.eq_of_toNat_eq
  rw [BitVec.toNat_ofNat, BitVec.extractLsb'_toNat, BitVec.toNat_ofNat, Nat.mod_eq_of_lt hv,
    Nat.shiftRight_eq_div_pow, wordOf, Nat.mod_mod]

theorem getWord_regOf {c : CurveParams} {v i : Nat} (hv : v < 2 ^ c.width) (hi : i < c.words) :
    getWord (regOf c v) i = (BitVec.ofNat c.width v).extractLsb' (32 * i) 32 :=
  (getWord_bigOfNat v hi).trans (ofNat_wordOf_eq_extractLsb' hv i)

/-- Settles O7: the sum by induction on the words, the value and the words written by the digits of `v`. -/
theorem bigRegisterIsSumOfItsWords : Obligations.BigRegisterIsSumOfItsWords :=
  ⟨uint_eq_sum, fun _ _ hv => ⟨uint_regOf hv, fun _ hi => getWord_regOf hv hi⟩⟩

end Sys2Proof.Machine
end


-- ==== Sys2Proof/Proofs/Ports.lean ====
section
/-! PROOFS. The register port with `rst` released, and what a host access, an event and a step can do, said once each
(R13, R60, R68, R72). -/

namespace Sys2Proof.Machine

/-! ### Reads and writes with `rst` released -/

theorem readOff_released {s : State} (h : s.rst = false) (off : Nat) : s.readOff off = s.readTarget (targetOf off) := by
  simp [State.readOff, h]

theorem writeOff_released {s : State} (h : s.rst = false) (off : Nat) (v : Word) :
    s.writeOff off v = s.writeTarget v (targetOf off) := by
  simp [State.writeOff, h]

section Offsets
variable {s : State}

theorem readOff_id (h : s.rst = false) : s.readOff 0x000 = idWord s.build.curve := readOff_released h _
theorem readOff_cmd (h : s.rst = false) : s.readOff 0x004 = s.cmd := readOff_released h _
theorem readOff_status (h : s.rst = false) : s.readOff 0x008 = s.statusWord := readOff_released h _
theorem readOff_intctl (h : s.rst = false) : s.readOff 0x00C = flagWord s.ie := readOff_released h _
theorem readOff_pinf (h : s.rst = false) : s.readOff 0x010 = flagWord s.pinf := readOff_released h _
theorem readOff_qinf (h : s.rst = false) : s.readOff 0x014 = flagWord s.qinf := readOff_released h _
theorem readOff_rinf (h : s.rst = false) : s.readOff 0x018 = flagWord s.rinf := readOff_released h _

theorem writeOff_cmd (h : s.rst = false) (v : Word) : s.writeOff 0x004 v = s.writeCmd v :=
  writeOff_released h _ v

theorem writeOff_status (h : s.rst = false) (v : Word) : s.writeOff 0x008 v = s.writeStatus v :=
  writeOff_released h _ v

theorem writeOff_intctl (h : s.rst = false) (v : Word) :
    s.writeOff 0x00C v = { s with ie := v.getLsbD 0 } :=
  writeOff_released h _ v

theorem writeOff_pinf_idle (hr : s.rst = false) (hq : s.seq = .idle) (v : Word) :
    s.writeOff 0x010 v = { s with pinf := v.getLsbD 0 } :=
  (writeOff_released hr _ v).trans (gated_idle hq)

theorem writeOff_qinf_idle (hr : s.rst = false) (hq : s.seq = .idle) (v : Word) :
    s.writeOff 0x014 v = { s with qinf := v.getLsbD 0 } :=
  (writeOff_released hr _ v).trans (gated_idle hq)

/-- R29: RINF ignores writes. -/
theorem writeOff_rinf (hr : s.rst = false) (v : Word) : s.writeOff 0x018 v = s := writeOff_released hr _ v

theorem writeCmd_idle (h : s.seq = .idle) (v : Word) : s.writeCmd v = s.accept v := by
  simp [State.writeCmd, h]

end Offsets

@[simp] theorem putBig_build (s : State) (X : BigName) (r : BigReg) : (s.putBig X r).build = s.build := by
  cases X <;> rfl

@[simp] theorem putBig_done (s : State) (X : BigName) (r : BigReg) : (s.putBig X r).done = s.done := by
  cases X <;> rfl

/-! ### The address map -/

/-- The offsets at which R61 has the target. -/
def Target.Covers (off : Nat) : Target → Prop
  | .id => off % 4096 / 4 = 0
  | .cmd => off % 4096 / 4 = 1
  | .status => inStatus off
  | .intctl => off % 4096 / 4 = 3
  | .pinf => off % 4096 / 4 = 4
  | .qinf => off % 4096 / 4 = 5
  | .rinf => inRinf off
  | .big X i => i < 32 ∧ off % 4096 / 4 = X.offset i / 4
  | .reserved => (7 ≤ off % 4096 / 4 ∧ off % 4096 / 4 < 64) ∨ 352 ≤ off % 4096 / 4

theorem covers_of_targetOf {off : Nat} {T : Target} (h : targetOf off = T) : T.Covers off := by
  subst h
  obtain ⟨hw, ht⟩ | ⟨hw, ht⟩ | ⟨hw, ht⟩ | ⟨hw, ht⟩ | ⟨hw, ht⟩ | ⟨hw, ht⟩ | ⟨hw, ht⟩ | ⟨X, i, hi, hw, ht⟩ | ⟨hw, ht⟩ :=
    targetOf_cases off <;> rw [ht]
  case inr.inr.inr.inr.inr.inr.inr.inl => exact ⟨hi, hw⟩
  all_goals exact hw

/-! ### What each can do -/

/-- The states that a port write of `v` can leave (R68), by what it does, with what each needs of the sequencer. -/
inductive WriteEffect (s : State) (v : Word) : State → Prop
  | ignored : WriteEffect s v s
  | status : WriteEffect s v (s.writeStatus v)
  | intctl : WriteEffect s v { s with ie := v.getLsbD 0 }
  | overrun (h : s.seq ≠ .idle) : WriteEffect s v { s with ovr := true }
  | dropped (h : s.seq ≠ .idle) : WriteEffect s v { s with wign := true }
  | accepted (h : s.seq = .idle) : WriteEffect s v (s.accept v)
  | pinf (h : s.seq = .idle) : WriteEffect s v { s with pinf := v.getLsbD 0 }
  | qinf (h : s.seq = .idle) : WriteEffect s v { s with qinf := v.getLsbD 0 }
  | operand (h : s.seq = .idle) (X : BigName) (i : Nat) : WriteEffect s v (s.putBig X (setWord (s.big X) i v))

/-- An operand write is dropped while busy (R230). -/
theorem gated_effect {s s' : State} {v : Word} (h : s.seq = .idle → WriteEffect s v s') :
    WriteEffect s v (s.gated s') := by
  cases hq : s.seq with
  | idle => rw [gated_idle hq]; exact h hq
  | busy u => rw [gated_busy hq]; exact .dropped (by simp [hq])

theorem writeOff_effect (s : State) (off : Nat) (v : Word) : WriteEffect s v (s.writeOff off v) := by
  cases hr : s.rst with
  | true => simpa [State.writeOff, hr] using .ignored
  | false =>
    rw [writeOff_released hr]
    obtain ⟨-, h⟩ | ⟨-, h⟩ | ⟨-, h⟩ | ⟨-, h⟩ | ⟨-, h⟩ | ⟨X, i, -, -, -, h⟩ | ⟨-, -, -, -, -, -, h⟩ :=
      writeTarget_cases s v (targetOf off) <;> rw [h]
    · obtain ⟨⟨u, hq⟩, h⟩ | ⟨hq, h⟩ := writeCmd_cases s v <;> rw [h]
      · exact .overrun (by simp [hq])
      · exact .accepted hq
    · exact .status
    · exact .intctl
    · exact gated_effect .pinf
    · exact gated_effect .qinf
    · exact gated_effect fun hq => .operand hq X i
    · exact .ignored

/-- What one event can do (R70, R72). -/
theorem handle_cases {s t : State} {e : Event} (h : s.handle e = .next t) :
    (∃ addr off, e = .read addr 4 ∧ windowOffset s.build addr = some off ∧
      t = { s with response := some (s.readOff off) }) ∨
    (∃ addr off v, e = .write addr 4 v ∧ windowOffset s.build addr = some off ∧ t = s.writeOff off v) ∨
    (e = .iterate ∧ t = if s.rst then s else s.iterate) ∨
    (e = .complete ∧ s.completionStep = .next t) ∨
    (e = .assertReset ∧ t = s.assertReset) ∨
    (e = .releaseReset ∧ t = s.releaseReset) := by
  cases e with
  | read addr size =>
    obtain ⟨off, ho, rfl, rfl⟩ := access_cases h
    exact .inl ⟨addr, off, rfl, ho, rfl⟩
  | write addr size v =>
    obtain ⟨off, ho, rfl, rfl⟩ := access_cases h
    exact .inr (.inl ⟨addr, off, v, rfl, ho, rfl⟩)
  | iterate =>
    cases h
    exact .inr (.inr (.inl ⟨rfl, rfl⟩))
  | complete => exact .inr (.inr (.inr (.inl ⟨rfl, h⟩)))
  | assertReset => cases h; simp
  | releaseReset => cases h; simp

/-- A step is the completion step, or the first event of the order (R72, R226). -/
theorem step_cases {s t : State} (h : step s = .next t) :
    (s.events = [] ∧ s.completionStep = .next t) ∨
      ∃ e es, s.events = e :: es ∧ (s.withEvents es).handle e = .next t := by
  cases hev : s.events with
  | nil => exact .inl ⟨rfl, by rwa [step_nil hev] at h⟩
  | cons e es => exact .inr ⟨e, es, rfl, by rwa [step_cons hev] at h⟩

/-- What the completion step can do: nothing with no command in flight, or end that command (R141, R240). -/
theorem completionStep_ends {s t : State} (h : s.completionStep = .next t) :
    (s.inFlight = none ∧ t = s) ∨ (∃ v, s.inFlight = some v) ∧ ((∃ w, t = s.complete w) ∨ ∃ e, t = s.raiseError e) := by
  obtain hn | ⟨v, hv, ⟨-, -, rfl⟩ | ⟨i, -, hi⟩⟩ := completionStep_cases h
  · exact .inl hn
  · exact .inr ⟨⟨v, hv⟩, .inr ⟨_, rfl⟩⟩
  · exact .inr ⟨⟨v, hv⟩, exec_cases hi⟩

theorem inFlight_busy {s : State} {v : Word} (hr : s.rst = false) (hq : s.seq = .busy v) : s.inFlight = some v := by
  simp [State.inFlight, hr, hq]

/-- R141: the completion step of a command in flight runs its rule. -/
theorem completionStep_command {s : State} {v : Word} {i : Instr} (hr : s.rst = false) (hq : s.seq = .busy v)
    (hd : decode v = .command i) : s.completionStep = exec i s := by
  simp [State.completionStep, inFlight_busy hr hq, hd]

end Sys2Proof.Machine
end

