-- ==== Sys2Proof/Proofs/InFlight.lean ====
section
/-! PROOFS. A command in flight: what leaves it undisturbed (R31, R42), its hidden iterations (R44), and the interrupt that
its completion raises (R47). -/

namespace Sys2Proof.Machine

/-! ### Undisturbed -/

/-- From `s` to `t` nothing changed but the flags a host can clear or set, the hidden loop and the host's side of the port:
the sequencer, CMD, the operands, R and EQ are as they were (R31, R42). -/
def Undisturbed (s t : State) : Prop :=
  t = { s with
    done := t.done, ovr := t.ovr, wign := t.wign, ie := t.ie, smul := t.smul, response := t.response, events := t.events }

theorem Undisturbed.build {s t : State} (h : Undisturbed s t) : t.build = s.build := by
  have ht : t = _ := h
  rw [ht]

/-- R42, R229, R230: no port write reaches what a command in flight uses. -/
theorem WriteEffect.undisturbed {s t : State} {v : Word} (h : WriteEffect s v t) (hb : s.seq ≠ .idle) :
    Undisturbed s t := by
  cases h with
  | accepted h | pinf h | qinf h | operand h => exact absurd h hb
  | ignored | status | intctl | overrun | dropped => rfl

theorem iterate_undisturbed (s : State) : Undisturbed s s.iterate := by
  obtain h | ⟨v, i, acc, -, -, -, -, -, h⟩ := iterate_cases s <;> rw [h] <;> rfl

theorem handle_undisturbed {s t : State} {u : Word} {e : Event} (hr : s.rst = false) (hq : s.seq = .busy u)
    (hc : e ≠ .complete) (ha : e ≠ .assertReset) (h : s.handle e = .next t) : Undisturbed s t := by
  obtain ⟨-, off, -, -, rfl⟩ | ⟨-, off, v, -, -, rfl⟩ | ⟨-, rfl⟩ | ⟨rfl, -⟩ | ⟨rfl, -⟩ | ⟨-, rfl⟩ := handle_cases h
  · rfl
  · exact (writeOff_effect s off v).undisturbed (by simp [hq])
  · simpa [hr] using iterate_undisturbed s
  · exact absurd rfl hc
  · exact absurd rfl ha
  · simp [Undisturbed, State.releaseReset, hr]

/-- Settles O24: the event leaves the state undisturbed, and so each of the fields named. -/
theorem commandInFlightIsUndisturbed : Obligations.CommandInFlightIsUndisturbed := by
  intro s t v e es hr hq hev hc ha hs
  rw [step_cons hev] at hs
  have h : t = _ := handle_undisturbed (s := s.withEvents es) hr hq hc ha hs
  rw [h]
  exact ⟨hq, rfl, rfl, rfl, rfl, rfl, rfl, rfl, rfl, rfl, rfl, rfl, rfl, hr⟩

/-! ### Hidden iterations -/

/-- R44: an iteration takes the hidden loop to its next stage, and touches nothing else that the invariant speaks of. -/
theorem iterate_inv {s : State} (hi : Inv s) : Inv s.iterate := by
  obtain h | ⟨v, i, acc, hq, hd, hP, hn, hs, h⟩ := iterate_cases s <;> rw [h]
  · exact hi
  have hstage : i + 1 ≤ s.build.curve.width := by
    rw [← hn, State.loopState]
    cases hl : s.smul with
    | none => exact le_rfl
    | some l => exact (hi.loop l hl).stage.le
  obtain ⟨acc', hacc', hred⟩ := psmulStep_total hi.build.curve hP (loopState_reduced hi) (uint s.k) i
  obtain rfl : acc' = acc := Except.ok.inj (hacc'.symm.trans hs)
  have hsame := loopState_sameEnd hi
  rw [hn, psmulFrom_step hs] at hsame
  refine { hi with loop := ?_, regs := { hi.regs with }, reset := fun hr => ?_ }
  · rintro _ ⟨⟩
    exact ⟨⟨v, hq, hd⟩, hP, hstage, hred, hsame⟩
  · have hidle : s.seq = .idle := congrArg State.seq (hi.reset hr)
    exact absurd (hidle.symm.trans hq) (by simp)

/-- A command in flight that an iteration leaves ends as it would have. -/
theorem finish_iterate (s : State) (r : Except ErrCode Commit) : s.iterate.finish r = s.finish r := by
  obtain ⟨-, -, herr, hok⟩ := iterate_hidden s
  cases r <;> simp [State.finish, herr, hok]

/-- R181 in a state of the invariant: PSMUL commits the whole product, wherever its hidden loop stands. -/
theorem execPsmul_of_inv {s : State} (hi : Inv s) : exec .psmul s =
    if pointInRange s.build.curve.p s.ptP = true then
      s.finish ((psmul s.build.curve s.ptP (uint s.k)).map .point)
    else .next (s.raiseError .range) := by
  rw [execPsmul_eq, loopState_sameEnd hi]

theorem completionStep_iterate {s : State} (hi : Inv s) (hr : s.rst = false) :
    s.iterate.completionStep = s.completionStep := by
  have hi' := iterate_inv hi
  obtain ⟨hr', hq', herr, -⟩ := iterate_hidden s
  have hfin := finish_iterate s
  obtain h | ⟨u, i, acc, hu, hd, -, -, -, h⟩ := iterate_cases s
  · rw [h]
  · rw [completionStep_command (hr'.trans hr) (hq'.trans hu) hd, completionStep_command hr hu hd,
      execPsmul_of_inv hi', execPsmul_of_inv hi, hfin, herr]
    rw [h]
    rfl

/-- Settles O26, by induction on the number of iterations: each keeps the invariant and changes no completion. -/
theorem hiddenIterationsDoNotMatter : Obligations.HiddenIterationsDoNotMatter := by
  intro s v n
  induction n generalizing s with
  | zero => intros; rfl
  | succ n ih =>
    intro hi hr hq
    obtain ⟨hr', hq', -, -⟩ := iterate_hidden s
    rw [Function.iterate_succ_apply, ih _ (iterate_inv hi) (hr'.trans hr) (hq'.trans hq),
      completionStep_iterate hi hr]

/-! ### The interrupt -/

theorem irq_iff (s : State) : s.irq = true ↔ s.ie = true ∧ s.done = true := by simp [State.irq]

/-- R231: the end of a command in flight, successful or failed, sets DONE and leaves IE. -/
theorem completionStep_done {s t : State} {v : Word} (hr : s.rst = false) (hq : s.seq = .busy v)
    (h : s.completionStep = .next t) : t.done = true ∧ t.ie = s.ie ∧ t.seq = .idle := by
  obtain ⟨hn, -⟩ | ⟨-, ⟨w, rfl⟩ | ⟨e, rfl⟩⟩ := completionStep_ends h
  · simp [inFlight_busy hr hq] at hn
  · exact ⟨rfl, apply_ie s w, rfl⟩
  · exact ⟨rfl, rfl, rfl⟩

/-- No port write sets DONE. -/
theorem WriteEffect.done {s t : State} {v : Word} (h : WriteEffect s v t) (ht : t.done = true) : s.done = true := by
  cases h with
  | ignored | intctl | overrun | dropped | pinf | qinf => exact ht
  | status => exact (Bool.and_eq_true_iff.mp ht).1
  | accepted => exact absurd ht (by simp)
  | operand h X i => exact (putBig_done s X _).symm.trans ht

theorem iterate_done (s : State) : s.iterate.done = s.done := by
  obtain h | ⟨v, i, acc, -, -, -, -, -, h⟩ := iterate_cases s <;> rw [h]

/-- Only the completion step sets DONE. -/
theorem handle_done {s t : State} {e : Event} (h : s.handle e = .next t) (hs : s.done = false) (ht : t.done = true) :
    e = .complete ∧ s.completionStep = .next t := by
  obtain ⟨-, off, -, -, rfl⟩ | ⟨-, off, v, -, -, rfl⟩ | ⟨-, rfl⟩ | hc | ⟨-, rfl⟩ | ⟨-, rfl⟩ := handle_cases h
  · simp [hs] at ht
  · simp [(writeOff_effect s off v).done ht] at hs
  · cases hr : s.rst <;> simp [hr, iterate_done, hs] at ht
  · exact hc
  · simp at ht
  · simp [hs] at ht

/-- A completion step that sets DONE ends a command in flight. -/
theorem completionStep_ended {s t : State} (h : s.completionStep = .next t) (hs : s.done = false) (ht : t.done = true) :
    s.rst = false ∧ (∃ v, s.seq = .busy v) ∧ t.seq = .idle := by
  obtain ⟨-, rfl⟩ | ⟨v, hv, -⟩ := completionStep_cases h
  · simp [hs] at ht
  · obtain ⟨hr, hq⟩ := inFlight_some hv
    exact ⟨hr, ⟨v, hq⟩, (completionStep_done hr hq h).2.2⟩

/-- Settles O27: what `irq` is, what sets DONE, and what clears it or masks it. -/
theorem interruptFollowsCompletion : Obligations.InterruptFollowsCompletion := by
  refine ⟨irq_iff, fun s t v hr hq h => ?_, fun s v hr => ⟨fun hv => ?_, fun hq => ?_, ?_⟩, fun s => rfl,
    fun s t h hs ht => ?_⟩
  · obtain ⟨hd, hie, -⟩ := completionStep_done hr hq h
    exact ⟨hd, by simp [State.irq, hd, hie]⟩
  · rw [writeOff_status hr]
    simp [State.irq, hv]
  · rw [writeOff_cmd hr, writeCmd_idle hq]
    simp [State.irq]
  · rw [writeOff_intctl hr]
    exact ⟨rfl, rfl⟩
  · obtain ⟨hev, hc⟩ | ⟨e, es, hev, he⟩ := step_cases h
    · obtain ⟨hr, hq, hi⟩ := completionStep_ended hc hs ht
      exact ⟨hr, hq, hi, .inl hev⟩
    · obtain ⟨rfl, hc⟩ := handle_done he hs ht
      obtain ⟨hr, hq, hi⟩ := completionStep_ended hc hs ht
      exact ⟨hr, hq, hi, .inr ⟨es, hev⟩⟩

end Sys2Proof.Machine
end

