-- ==== Sys2Proof/Proofs/Frames.lean ====
section
/-! PROOFS. What the end of a command changes and what it leaves, by fields and by bytes of the window (R29, R30, R83). -/

namespace Sys2Proof.Machine

/-! ### Which bytes a register takes -/

/-- Two states answer alike at an offset when `rst` and what the offset names are alike. -/
theorem readByte_congr {s t : State} {off : Nat} (hr : t.rst = s.rst)
    (h : t.readTarget (targetOf off) = s.readTarget (targetOf off)) : t.readByte off = s.readByte off := by
  simp only [State.readByte, State.readOff, hr, h]

theorem inStatus_of_targetOf {off : Nat} (h : targetOf off = .status) : inStatus off := covers_of_targetOf h

theorem inRinf_of_targetOf {off : Nat} (h : targetOf off = .rinf) : inRinf off := covers_of_targetOf h

/-- An offset that names a word of a big register lies in its slot of 128 bytes (R61, R62). -/
theorem slot_of_targetOf {off i : Nat} {X : BigName} (h : targetOf off = .big X i) :
    X.offset 0 ≤ off % 4096 ∧ off % 4096 < X.offset 0 + 0x80 := by
  obtain ⟨hi, hw⟩ := covers_of_targetOf h
  cases X <;> simp only [BigName.offset] at hw ⊢ <;> omega

/-! ### What an end of a command leaves of the window -/

theorem readTarget_endCommand {s : State} {e : ErrCode} {T : Target} (h : T ≠ .status) :
    (s.endCommand e).readTarget T = s.readTarget T := by
  cases T with
  | status => exact absurd rfl h
  | big X i => cases X <;> rfl
  | _ => rfl

theorem readTarget_apply_field {s : State} {v : Nat} {T : Target} (h : ∀ i, T ≠ .big .rx i) :
    (s.apply (.field v)).readTarget T = s.readTarget T := by
  cases T with
  | big X i =>
    cases X with
    | rx => exact absurd rfl (h i)
    | _ => rfl
  | _ => rfl

theorem readTarget_apply_equal {s : State} {b : Bool} {T : Target} (h : T ≠ .status) :
    (s.apply (.equal b)).readTarget T = s.readTarget T := by
  cases T with
  | status => exact absurd rfl h
  | big X i => cases X <;> rfl
  | _ => rfl

theorem readTarget_setR {s : State} {r : Point} {T : Target} (hs : T ≠ .status) (hi : T ≠ .rinf)
    (hx : ∀ i, T ≠ .big .rx i) (hy : ∀ i, T ≠ .big .ry i) : (s.setR r).readTarget T = s.readTarget T := by
  cases T with
  | status => exact absurd rfl hs
  | rinf => exact absurd rfl hi
  | big X i =>
    cases X with
    | rx => exact absurd rfl (hx i)
    | ry => exact absurd rfl (hy i)
    | _ => cases r <;> rfl
  | _ => cases r <;> rfl

/-! ### How each command can end -/

/-- A field command of two operands (R110 to R113) commits its value, or reports RANGE. -/
theorem field_ends_of_checked {s t : State} {c : Prop} [Decidable c] {v : Nat} (hv : v < s.build.curve.p)
    (h : (if c then Host.Outcome.next (s.complete (.field v)) else .next (s.raiseError .range)) =
      (.next t : Host.Outcome State Fault Refusal)) :
    (∃ v, v < s.build.curve.p ∧ t = s.complete (.field v)) ∨ ∃ e, e ≠ .none ∧ t = s.raiseError e := by
  split at h <;> cases h
  · exact .inl ⟨v, hv, rfl⟩
  · exact .inr ⟨.range, by simp, rfl⟩

/-- R110 to R114: a field command commits a reduced value, or reports an error. -/
theorem field_ends {s t : State} {i : Instr} (hv : s.build.curve.Valid)
    (hi : i = .fadd ∨ i = .fsub ∨ i = .fmul ∨ i = .fmont ∨ i = .finv) (h : exec i s = .next t) :
    (∃ v, v < s.build.curve.p ∧ t = s.complete (.field v)) ∨ ∃ e, e ≠ .none ∧ t = s.raiseError e := by
  have hp := valid_p_pos hv
  obtain rfl | rfl | rfl | rfl | rfl := hi
  · exact field_ends_of_checked (fadd_lt hp _ _) ((execFadd_eq s).symm.trans h)
  · exact field_ends_of_checked (fsub_lt hp _ _) ((execFsub_eq s).symm.trans h)
  · exact field_ends_of_checked (fmul_lt hp _ _) ((execFmul_eq s).symm.trans h)
  · exact field_ends_of_checked (fmont_lt hp _ _) ((execFmont_eq s).symm.trans h)
  · rw [execFinv_eq] at h
    split at h
    · split at h <;> cases h
      · exact .inr ⟨.inv0, by simp, rfl⟩
      · next r hr => exact .inl ⟨r, ((invMod_eq_some_iff hv.prime.one_lt).mp hr).1, rfl⟩
    · cases h
      exact .inr ⟨.range, by simp, rfl⟩

/-- A point command (R145, R150, R160, R181) commits the point its function answers, or reports an error. -/
theorem point_ends_of_checked {s t : State} {c : Prop} [Decidable c] {r : Except ErrCode Point}
    (h : (if c then s.finish (r.map .point) else .next (s.raiseError .range)) = .next t) :
    (∃ q, t = s.complete (.point q)) ∨ ∃ e, t = s.raiseError e := by
  split at h
  · cases r <;> cases h
    · exact .inr ⟨_, rfl⟩
    · exact .inl ⟨_, rfl⟩
  · cases h
    exact .inr ⟨_, rfl⟩

theorem point_ends {s t : State} {i : Instr} (hi : i = .padd ∨ i = .pdbl ∨ i = .pneg ∨ i = .psmul)
    (h : exec i s = .next t) : (∃ q, t = s.complete (.point q)) ∨ ∃ e, t = s.raiseError e := by
  obtain rfl | rfl | rfl | rfl := hi
  · exact point_ends_of_checked ((execPadd_eq s).symm.trans h)
  · exact point_ends_of_checked ((execPdbl_eq s).symm.trans h)
  · exact point_ends_of_checked (r := .ok _) ((execPneg_eq s).symm.trans h)
  · exact point_ends_of_checked ((execPsmul_eq s).symm.trans h)

/-- R201: PEQ commits a truth value, or reports an error. -/
theorem peq_ends {s t : State} (h : exec .peq s = .next t) :
    (∃ b, t = s.complete (.equal b)) ∨ ∃ e, t = s.raiseError e := by
  rw [execPeq_eq] at h
  split at h <;> cases h
  · exact .inl ⟨_, rfl⟩
  · exact .inr ⟨_, rfl⟩

/-! ### The frames -/

/-- R225: an error leaves every byte outside STATUS. -/
theorem readByte_raiseError (s : State) (e : ErrCode) {off : Nat} (h : ¬ inStatus off) :
    (s.raiseError e).readByte off = s.readByte off :=
  readByte_congr rfl (readTarget_endCommand (mt inStatus_of_targetOf h))

/-- Settles O44: by how a field command can end. -/
theorem fieldCommandFrame : Obligations.FieldCommandFrame := by
  intro s t i hi hv h
  obtain ⟨v, hlt, rfl⟩ | ⟨e, he, rfl⟩ := field_ends hv hi h
  · refine ⟨rfl, fun off hx hs => readByte_congr rfl ?_, fun _ => ?_, fun hne => absurd rfl hne⟩
    · exact (readTarget_endCommand (mt inStatus_of_targetOf hs)).trans
        (readTarget_apply_field fun i ht => hx (slot_of_targetOf ht))
    · have := valid_p_lt_radix hv
      exact (uint_regOf (hlt.trans this)).trans_lt hlt
  · exact ⟨rfl, fun off _ hs => readByte_raiseError s e hs, fun hn => absurd hn he, fun _ => rfl⟩

/-- Settles O45: by how a point command can end. -/
theorem pointCommandFrame : Obligations.PointCommandFrame := by
  intro s t i hi h
  obtain ⟨q, rfl⟩ | ⟨e, rfl⟩ := point_ends hi h
  · refine ⟨by cases q <;> rfl, setR_eq s q, fun off hx hy hr hs => readByte_congr (setR_rst s q) ?_,
      fun hne => absurd rfl hne⟩
    have hst := mt inStatus_of_targetOf hs
    exact (readTarget_endCommand hst).trans (readTarget_setR hst (mt inRinf_of_targetOf hr)
      (fun i ht => hx (slot_of_targetOf ht)) (fun i ht => hy (slot_of_targetOf ht)))
  · exact ⟨rfl, rfl, fun off _ _ _ hs => readByte_raiseError s e hs, fun _ => ⟨rfl, rfl, rfl⟩⟩

/-- Settles O46: by how PEQ can end. -/
theorem peqFrame : Obligations.PeqFrame := by
  intro s t h
  obtain ⟨b, rfl⟩ | ⟨e, rfl⟩ := peq_ends h
  · refine ⟨rfl, fun off hs => readByte_congr rfl ?_, fun hne => absurd rfl hne⟩
    have hst := mt inStatus_of_targetOf hs
    exact (readTarget_endCommand hst).trans (readTarget_apply_equal hst)
  · exact ⟨rfl, fun off hs => readByte_raiseError s e hs, fun _ => rfl⟩

end Sys2Proof.Machine
end

