-- ==== Sys2Proof/Proofs/Status.lean ====
section
/-! PROOFS. The STATUS word bit by bit (R34), its W1C write, and the registers of which bit 0 alone is stored (R24, R29,
R35). -/

namespace Sys2Proof.Machine

/-! ### The STATUS word -/

@[simp] theorem writeStatus_busy (s : State) (v : Word) : (s.writeStatus v).busy = s.busy := rfl

@[simp] theorem writeStatus_err (s : State) (v : Word) : (s.writeStatus v).err = s.err := rfl

/-- Bit `i` of the STATUS word (R34). -/
theorem statusWord_getLsbD (s : State) (i : Nat) :
    s.statusWord.getLsbD i = (match i with
      | 0 => s.busy | 1 => s.done | 2 => s.err | 3 => s.eq | 4 => s.rinf | 5 => s.ovr | 6 => s.wign | 7 => false
      | n + 8 => (errBits s.errcode).getLsbD n) := by
  simp only [State.statusWord, BitVec.getLsbD_append, BitVec.getLsbD_ofBool]
  rcases i with _ | _ | _ | _ | _ | _ | _ | _ | n <;> simp
  exact BitVec.lt_of_getLsbD

theorem statusWord_errBits (s : State) : s.statusWord.extractLsb' 8 3 = errBits s.errcode := by
  apply BitVec.eq_of_getLsbD_eq
  intro i hi
  simp [hi, Nat.add_comm 8 i, statusWord_getLsbD]

theorem w1cMask_getLsbD : ∀ i < 32, (0x62#32).getLsbD i = (i == 1 || i == 5 || i == 6) := by decide

/-- R34: the W1C write clears bits 1, 5 and 6 of the word where the data has them set. -/
theorem writeStatus_statusWord (s : State) (v : Word) :
    (s.writeStatus v).statusWord = s.statusWord &&& ~~~(v &&& 0x62#32) := by
  apply BitVec.eq_of_getLsbD_eq
  intro i hi
  rw [BitVec.getLsbD_and, BitVec.getLsbD_not, BitVec.getLsbD_and, w1cMask_getLsbD i hi, statusWord_getLsbD,
    statusWord_getLsbD]
  rcases i with _ | _ | _ | _ | _ | _ | _ | _ | n <;> simp [hi]

theorem resetOf_statusWord (b : Build) : (State.resetOf b).statusWord = 0x10#32 := by
  simp [State.statusWord, State.resetOf, State.busy, State.err, errBits]

theorem busy_iff_ne_idle (s : State) : s.busy = true ↔ s.seq ≠ .idle := by
  cases h : s.seq <;> simp [State.busy, h]

/-- R220: the codes' numbers. -/
theorem errBits_eq (e : ErrCode) : errBits e = (match e with
    | .none => 0#3 | .illegal => 1#3 | .range => 2#3 | .inv0 => 3#3 | .denom0 => 4#3) := by
  cases e <;> rfl

/-- Settles O16: the fields by the word's bits, the write by the word it leaves. -/
theorem statusWordFields : Obligations.StatusWordFields := by
  refine ⟨fun s => readOff_status, fun s => ⟨?_, statusWord_getLsbD s 1, ?_, statusWord_getLsbD s 3,
    statusWord_getLsbD s 4, statusWord_getLsbD s 5, statusWord_getLsbD s 6, statusWord_getLsbD s 7, ?_, fun i hi => ?_⟩,
    fun s v hr => ?_, fun b => (readOff_status rfl).trans (resetOf_statusWord b)⟩
  · rw [statusWord_getLsbD]
    exact busy_iff_ne_idle s
  · rw [statusWord_getLsbD, statusWord_errBits]
    simp [State.err]
  · rw [statusWord_errBits]
    exact errBits_eq s.errcode
  · obtain ⟨n, rfl⟩ := Nat.exists_eq_add_of_le' hi
    rw [statusWord_getLsbD]
    exact BitVec.getLsbD_of_ge _ _ (by omega)
  · rw [writeOff_status hr, readOff_status (s := s.writeStatus v) hr, readOff_status hr]
    exact ⟨writeStatus_statusWord s v, writeStatus_statusWord s v, rfl⟩

/-! ### The flag registers -/

theorem flagWord_eq_ite (b : Bool) : flagWord b = if b then 1#32 else 0#32 := by cases b <;> rfl

/-- A flag register stores bit 0 of what is written, and reads bits 31:1 as 0. -/
theorem flagWord_bitZero (v : Word) : flagWord (v.getLsbD 0) = v &&& 1#32 := by
  rw [BitVec.and_one_eq_setWidth_ofBool_getLsbD]
  cases v.getLsbD 0 <;> rfl

/-- Settles O17: each read is a flag word, each write stores bit 0. -/
theorem flagRegistersStoreBitZero : Obligations.FlagRegistersStoreBitZero := by
  intro s v hr
  rw [readOff_intctl hr, readOff_pinf hr, readOff_qinf hr, readOff_rinf hr, writeOff_intctl hr, writeOff_rinf hr,
    readOff_intctl (by exact hr), readOff_rinf hr]
  refine ⟨flagWord_eq_ite _, flagWord_eq_ite _, flagWord_eq_ite _, flagWord_eq_ite _, flagWord_bitZero v,
    fun hq => ?_, rfl⟩
  rw [writeOff_pinf_idle hr hq, writeOff_qinf_idle hr hq, readOff_pinf (by exact hr),
    readOff_qinf (by exact hr)]
  exact ⟨flagWord_bitZero v, flagWord_bitZero v⟩

end Sys2Proof.Machine
end

