-- ==== Sys2Proof/Proofs/Constants.lean ====
section
/-! PROOFS. The constants of a build: the registers that show them (R32, R36, R37), that no step changes them (R20), and
that the catalog's are consistent (R21). -/

namespace Sys2Proof.Machine

/-! ### The constant registers -/

/-- NBITS is the bit length (R6). -/
theorem nbits_eq_size {c : CurveParams} (h : 0 < c.p) : nbits c = Nat.size c.p := by
  apply le_antisymm
  · exact Nat.lt_size.mpr (Nat.log2_self_le h.ne')
  · exact Nat.size_le.mpr Nat.lt_log2_self

section IdWord
variable (c : CurveParams)

theorem idWord_nbits : (idWord c).extractLsb' 0 16 = BitVec.ofNat 16 (nbits c) :=
  BitVec.extractLsb'_append_eq_right

theorem idWord_curveId : (idWord c).extractLsb' 16 4 = c.curveId :=
  (BitVec.extractLsb'_append_eq_of_le (by decide)).trans
    BitVec.extractLsb'_append_eq_right

theorem idWord_words : (idWord c).extractLsb' 20 8 = BitVec.ofNat 8 c.words :=
  (BitVec.extractLsb'_append_eq_of_le (by decide)).trans <|
    (BitVec.extractLsb'_append_eq_of_le (by decide)).trans BitVec.extractLsb'_append_eq_right

theorem idWord_version : (idWord c).extractLsb' 28 4 = 1#4 :=
  (BitVec.extractLsb'_append_eq_of_le (by decide)).trans <|
    (BitVec.extractLsb'_append_eq_of_le (by decide)).trans BitVec.extractLsb'_append_eq_left

end IdWord

/-- R32: the whole ID word on the three curves of the hardware. -/
theorem idWord_catalog (e : CatalogEntry) : idWord e.params = (match e with
    | .p256 => 0x10800100#32 | .secp256k1 => 0x10810100#32 | .p521 => 0x11120209#32) := by
  cases e <;> decide +kernel

/-- R36. -/
theorem uint_pModReg {c : CurveParams} (h : c.Valid) : uint (pModReg c) = c.p := uint_regOf (valid_p_lt_radix h)

/-- R37. -/
theorem uint_montR2Reg {c : CurveParams} (h : c.Valid) : uint (montR2Reg c) = montR2 c :=
  uint_regOf ((Nat.mod_lt _ (valid_p_pos h)).trans (valid_p_lt_radix h))

/-- R37: the values on the three curves of the hardware. -/
theorem montR2_catalog (e : CatalogEntry) : montR2 e.params = (match e with
    | .p256 => 0x00000004FFFFFFFDFFFFFFFFFFFFFFFEFFFFFFFBFFFFFFFF0000000000000003
    | .secp256k1 => 0x000000000000000000000000000000000000000000000001000007A2000E90A1
    | .p521 => 0x400000000000) := by
  cases e <;> decide +kernel

/-- Settles O18: ID by its fields on every curve, by its word on the catalog's; P_MOD by what a register holds. -/
theorem identificationAndModulus : Obligations.IdentificationAndModulus := by
  refine ⟨fun s e hr he => ?_, fun s hv hr => ?_⟩
  · rw [readOff_id hr, he]
    exact idWord_catalog e
  · rw [readOff_id hr, ← nbits_eq_size (valid_p_pos hv)]
    exact ⟨uint_pModReg hv, idWord_nbits _, idWord_curveId _, idWord_words _, idWord_version _⟩

/-- Settles O19: by what a register holds, and by evaluation on the catalog's curves. -/
theorem montgomeryConstant : Obligations.MontgomeryConstant := by
  refine ⟨fun s hv => uint_montR2Reg hv, fun s e he => ?_⟩
  have hv := catalog_valid e
  rw [← he] at hv
  exact (uint_montR2Reg hv).trans (he ▸ montR2_catalog e)

/-! ### No step changes them -/

theorem WriteEffect.build {s t : State} {v : Word} (h : WriteEffect s v t) : t.build = s.build := by
  cases h with
  | operand h X i => exact putBig_build s X _
  | ignored | status | intctl | overrun | dropped | accepted | pinf | qinf => rfl

theorem completionStep_build {s t : State} (h : s.completionStep = .next t) : t.build = s.build := by
  obtain ⟨-, rfl⟩ | ⟨-, ⟨w, rfl⟩ | ⟨e, rfl⟩⟩ := completionStep_ends h
  · rfl
  · exact apply_build s w
  · rfl

theorem handle_build {s t : State} {e : Event} (h : s.handle e = .next t) : t.build = s.build := by
  obtain ⟨-, off, -, -, rfl⟩ | ⟨-, off, v, -, -, rfl⟩ | ⟨-, rfl⟩ | ⟨-, hc⟩ | ⟨-, rfl⟩ | ⟨-, rfl⟩ := handle_cases h
  · rfl
  · exact (writeOff_effect s off v).build
  · split
    · rfl
    · exact (iterate_undisturbed s).build
  · exact completionStep_build hc
  · rfl
  · rfl

/-- R20: the build is what every step leaves. -/
theorem step_build {s t : State} (h : step s = .next t) : t.build = s.build := by
  obtain ⟨-, hc⟩ | ⟨e, es, -, he⟩ := step_cases h
  · exact completionStep_build hc
  · exact handle_build (s := s.withEvents es) he

/-- Settles O20: the constant registers are computed from the build, which no step changes. -/
theorem noStepChangesTheConstants : Obligations.NoStepChangesTheConstants := by
  intro s t h
  have hb := step_build h
  refine ⟨hb, ?_, ?_, fun hs ht => ?_⟩
  · simp only [State.big, hb]
  · simp only [State.big, hb]
  · rw [readOff_id hs, readOff_id ht, hb]

/-! ### The catalog -/

theorem catalog_nonSingular (e : CatalogEntry) : nonSingular e.params e.params.b := by
  unfold nonSingular
  cases e <;> decide +kernel

theorem catalog_generator_onCurve (e : CatalogEntry) :
    onCurve e.params e.params.b (.affine e.params.gx e.params.gy) := by
  unfold onCurve
  cases e <;> decide +kernel

/-- The homogeneous loop with the scalar `n` ends at the identity, and so does R180's. -/
theorem catalog_generator_order (e : CatalogEntry) :
    psmul e.params (.affine e.params.gx e.params.gy) e.params.n = .ok .identity := by
  obtain ⟨hx, hy, -⟩ := catalog_generator_onCurve e
  apply psmul_of_hmul (catalog_valid e) hx hy
  cases e <;> decide +kernel

/-- Settles O56: each of R21's checks on the three curves. -/
theorem catalogIsConsistent : Obligations.CatalogIsConsistent := fun e =>
  ⟨catalog_valid e, catalog_order_prime e, catalog_nonSingular e, catalog_generator_onCurve e, catalog_generator_order e⟩

end Sys2Proof.Machine
end

