-- ==== Sys2Proof/Proofs/ResetState.lean ====
section
/-! PROOFS. The state after reset (R48). -/

namespace Sys2Proof.Machine

/-- R48: the operand and result registers hold zero words, as many as the build has. -/
theorem resetOf_big (b : Build) {X : BigName}
    (hX : X = .px ∨ X = .py ∨ X = .qx ∨ X = .qy ∨ X = .k ∨ X = .rx ∨ X = .ry) :
    (State.resetOf b).big X = List.replicate b.curve.words 0#32 := by
  obtain rfl | rfl | rfl | rfl | rfl | rfl | rfl := hX <;> rfl

/-- Settles O28: each register by its value after reset. -/
theorem resetValues : Obligations.ResetValues := by
  have hset : flagWord true = 1#32 := flagWord_eq_ite true
  have hclear : flagWord false = 0#32 := flagWord_eq_ite false
  refine ⟨fun b hv => ⟨fun X hX => ?_, (readOff_pinf rfl).trans hset, (readOff_qinf rfl).trans hset,
    (readOff_rinf rfl).trans hset, readOff_cmd rfl, (readOff_status rfl).trans (resetOf_statusWord b),
    (readOff_intctl rfl).trans hclear, readOff_id rfl, uint_pModReg hv, uint_montR2Reg hv,
    rfl, rfl, rfl, rfl⟩, rfl, rfl⟩
  rw [resetOf_big b hX]
  exact ⟨uint_replicate_zero _, List.length_replicate⟩

/-- The invariant holds at the reset state of every build of R7. -/
theorem inv_resetOf {b : Build} (h : b.Valid) : Inv (State.resetOf b) where
  build := h
  regs := by constructor <;> exact List.length_replicate
  rxReduced := (uint_replicate_zero _).trans_lt (valid_p_pos h.curve)
  ryReduced := (uint_replicate_zero _).trans_lt (valid_p_pos h.curve)
  noDenom0 := nofun
  inFlight := nofun
  loop := nofun
  reset := nofun

/-- R6: the default build is one of R7's. -/
theorem default_valid : Build.default.Valid := ⟨curveP256_valid, rfl⟩

/-- Settles O59: on the default build since P-256 is valid and base 0 aligned. -/
theorem invariantHoldsAtReset : Obligations.InvariantHoldsAtReset :=
  ⟨fun _ h => inv_resetOf h, inv_resetOf default_valid⟩

end Sys2Proof.Machine
end

