-- ==== Sys2Proof/Proofs/Window.lean ====
section
/-! PROOFS. The register window: which offset reaches what (R61, R62, R64, R66), what a read and a write of each does and
leaves (R67, R68), and the accesses that are none of the engine's (R60, R63). -/

namespace Sys2Proof.Machine

/-! ### The address map, from offset to target -/

/-- The words of the nine slots run from 0x100 to 0x57C (R62). -/
theorem offset_bounds (X : BigName) {i : Nat} (h : i < 32) : 0x100 ≤ X.offset i ∧ X.offset i < 0x580 := by
  cases X <;> simp only [BigName.offset] <;> omega

/-- R64: an offset names what its word names. -/
theorem targetOf_congr {off off' : Nat} (h : off % 4096 / 4 = off' % 4096 / 4) : targetOf off = targetOf off' := by
  simp only [targetOf, h]

/-- The converse of `covers_of_targetOf`: where R61 has a target, the offset names it. -/
theorem targetOf_of_covers {off : Nat} {T : Target} (h : T.Covers off) : targetOf off = T := by
  cases T with
  | big X i =>
    obtain ⟨hi, hw⟩ := h
    have := offset_bounds X hi
    rw [← targetOf_offset X hi]
    exact targetOf_congr (by omega)
  | reserved =>
    have hw : (7 ≤ off % 4096 / 4 ∧ off % 4096 / 4 < 64) ∨ 352 ≤ off % 4096 / 4 := h
    cases ht : targetOf off with
    | reserved => rfl
    | big X i =>
      obtain ⟨hi, hn⟩ := covers_of_targetOf ht
      have := offset_bounds X hi
      omega
    | _ =>
      have hn : off % 4096 / 4 = _ := covers_of_targetOf ht
      omega
  | _ =>
    have hw : off % 4096 / 4 = _ := h
    simp only [targetOf, hw]

theorem reserved_covers {off : Nat} (hlt : off < 4096) (h : (0x01C ≤ off ∧ off < 0x100) ∨ 0x580 ≤ off) :
    Target.reserved.Covers off := by
  change (7 ≤ off % 4096 / 4 ∧ off % 4096 / 4 < 64) ∨ 352 ≤ off % 4096 / 4
  omega

section Released
variable {s : State} (hr : s.rst = false) {off : Nat} {T : Target} (h : T.Covers off)
include hr h

theorem readOff_of_covers : s.readOff off = s.readTarget T := by
  rw [readOff_released hr, targetOf_of_covers h]

theorem writeOff_of_covers (v : Word) : s.writeOff off v = s.writeTarget v T := by
  rw [writeOff_released hr, targetOf_of_covers h]

end Released

/-! ### Words of big registers -/

theorem offset_covers (X : BigName) {i : Nat} (h : i < 32) : (Target.big X i).Covers (X.offset i) :=
  covers_of_targetOf (targetOf_offset X h)

section Words
variable {s : State} {X : BigName} {i : Nat}

theorem readTarget_stored (hi : i < s.build.curve.words) : s.readTarget (.big X i) = getWord (s.big X) i := if_pos hi

/-- R62: a word that is not stored reads 0. -/
theorem readTarget_unstored (hi : s.build.curve.words ≤ i) : s.readTarget (.big X i) = 0#32 := if_neg (by omega)

theorem writeTarget_operand (hX : X.isOperand = true) (hi : i < s.build.curve.words) (v : Word) :
    s.writeTarget v (.big X i) = s.gated (s.putBig X (setWord (s.big X) i v)) := if_pos ⟨hX, hi⟩

/-- R62, R68: a write of a read-only word, or of one that is not stored, is ignored. -/
theorem writeTarget_inert (h : X.isOperand = false ∨ s.build.curve.words ≤ i) (v : Word) :
    s.writeTarget v (.big X i) = s := by
  refine if_neg fun ⟨hX, hi⟩ => ?_
  obtain hn | hn := h
  · simp [hX] at hn
  · omega

/-- The registers a host can write have the build's width. -/
theorem RegsFit.operand_length (hf : RegsFit s) (hX : X.isOperand = true) : (s.big X).length = s.build.curve.words := by
  cases X with
  | px => exact hf.px
  | py => exact hf.py
  | qx => exact hf.qx
  | qy => exact hf.qy
  | k => exact hf.k
  | rx | ry | pMod | montR2 => simp [BigName.isOperand] at hX

end Words

@[simp] theorem putBig_rst (s : State) (X : BigName) (r : BigReg) : (s.putBig X r).rst = s.rst := by
  cases X <;> rfl

theorem big_putBig_same {X : BigName} (hX : X.isOperand = true) (s : State) (r : BigReg) : (s.putBig X r).big X = r := by
  cases X with
  | px | py | qx | qy | k => rfl
  | rx | ry | pMod | montR2 => simp [BigName.isOperand] at hX

theorem big_putBig_other {X Y : BigName} (h : Y ≠ X) (s : State) (r : BigReg) : (s.putBig X r).big Y = s.big Y := by
  cases X with
  | px => cases Y with | px => exact absurd rfl h | _ => rfl
  | py => cases Y with | py => exact absurd rfl h | _ => rfl
  | qx => cases Y with | qx => exact absurd rfl h | _ => rfl
  | qy => cases Y with | qy => exact absurd rfl h | _ => rfl
  | k => cases Y with | k => exact absurd rfl h | _ => rfl
  | rx | ry | pMod | montR2 => rfl

theorem putBig_withEvents (s : State) (es : List Event) (X : BigName) (r : BigReg) :
    (s.withEvents es).putBig X r = (s.putBig X r).withEvents es := by
  cases X <;> rfl

/-- R68: an operand write leaves what every other target reads as. -/
theorem readTarget_putBig {s : State} {X : BigName} {i : Nat} {v : Word} (hX : X.isOperand = true) {T : Target}
    (h : T ≠ .big X i) : (s.putBig X (setWord (s.big X) i v)).readTarget T = s.readTarget T := by
  cases T with
  | big Y j =>
    simp only [State.readTarget, putBig_build]
    by_cases hY : Y = X
    · subst hY
      have hj : i ≠ j := fun hij => h (by rw [hij])
      rw [big_putBig_same hX, getWord_setWord_other v hj]
    · rw [big_putBig_other hY]
  | _ => cases X <;> rfl

section OperandWord
variable {s : State} {X : BigName} {i : Nat} (hX : X.isOperand = true) (hi : i < s.build.curve.words)
include hX hi

/-- R68: an idle engine stores a host's write of an operand word. -/
theorem writeOff_operand (hr : s.rst = false) (hq : s.seq = .idle) (hi32 : i < 32) (v : Word) :
    s.writeOff (X.offset i) v = s.putBig X (setWord (s.big X) i v) :=
  (writeOff_of_covers hr (offset_covers X hi32) v).trans ((writeTarget_operand hX hi v).trans (gated_idle hq))

/-- The words an operand register holds once word `i` is stored. -/
theorem getWord_putBig (hf : RegsFit s) (v : Word) (j : Nat) :
    getWord ((s.putBig X (setWord (s.big X) i v)).big X) j = if j = i then v else getWord (s.big X) j := by
  rw [big_putBig_same hX]
  split
  · next hj => rw [hj, getWord_setWord_same v (by rwa [hf.operand_length hX])]
  · next hj => exact getWord_setWord_other v (Ne.symm hj)

end OperandWord

/-- Settles O8: the slot's words are those the address map names, stored or not. -/
theorem bigRegisterSlots : Obligations.BigRegisterSlots := by
  intro s X i _ hf hr hi
  have hc := offset_covers X hi
  refine ⟨fun hw => (readOff_of_covers hr hc).trans (readTarget_stored hw), fun hw hX hq v => ?_,
    fun hw => ⟨(readOff_of_covers hr hc).trans (readTarget_unstored hw),
      fun v => (writeOff_of_covers hr hc v).trans (writeTarget_inert (.inr hw) v)⟩⟩
  rw [writeOff_operand hX hw hr hq hi, readOff_of_covers ((putBig_rst ..).trans hr) hc,
    readTarget_stored (by rwa [putBig_build]), getWord_putBig hX hw hf, if_pos rfl]

/-! ### The host's side of the port -/

/-- R67: what the host has read, and what it will do next, show at no offset of the window. -/
theorem readByte_hostSide (s : State) (r : Option Word) (es : List Event) (off : Nat) :
    State.readByte { s with response := r, events := es } off = s.readByte off := rfl

/-- Settles O9: the step stores the word, and an offset outside its four bytes names another target. -/
theorem operandWriteFrame : Obligations.OperandWriteFrame := by
  intro s X i v es hv hf hr hq hX hi hev
  have hi32 : i < 32 := hi.trans_le (valid_words_le hv)
  have hoff : X.offset i < 4096 := by have := offset_bounds X hi32; omega
  refine ⟨(s.putBig X (setWord (s.big X) i v)).withEvents es, ?_, rfl, getWord_putBig hX hi hf v,
    fun Y hY => big_putBig_other hY s _, fun off hne => ?_⟩
  · rw [step_write hoff hev, writeOff_operand (s := s.withEvents es) hX hi hr hq hi32, putBig_withEvents]
    rfl
  · have hT : targetOf off ≠ .big X i := fun h => hne (covers_of_targetOf h).2
    exact (readByte_hostSide ..).trans (readByte_congr (putBig_rst ..) (readTarget_putBig hX hT))

/-- Settles O10: with `rst` asserted nothing is read or written; released, the offset names nothing. -/
theorem reservedOffsetsAreInert : Obligations.ReservedOffsetsAreInert := by
  intro s off v es ho
  have hlt : off < 4096 := by omega
  have ht : targetOf off = .reserved := targetOf_of_covers (reserved_covers hlt (by omega))
  have hread : s.readOff off = 0#32 := by simp [State.readOff, ht, State.readTarget]
  have hwrite : (s.withEvents es).writeOff off v = s.withEvents es := by simp [State.writeOff, ht, State.writeTarget]
  refine ⟨fun hev => ?_, fun hev => ?_⟩
  · rw [step_read hlt hev, hread]
  · rw [step_write hlt hev, hwrite]
    rfl

/-- R64: masking with 0xFFC keeps the number of the word. -/
theorem and_mask_word (off : Nat) : (off &&& 0xFFC) % 4096 / 4 = off % 4096 / 4 := by
  calc (off &&& 0xFFC) % 2 ^ 12 / 2 ^ 2
      = (off % 2 ^ 12 / 2 ^ 2) &&& (2 ^ 10 - 1) := by rw [Nat.and_mod_two_pow, Nat.and_div_two_pow]
    _ = off % 2 ^ 12 / 2 ^ 2 % 2 ^ 10 := Nat.and_two_pow_sub_one_eq_mod _ 10
    _ = off % 4096 / 4 := by omega

/-- Settles O11: the masked offset names the same target, and an access of 4 bytes in the window is answered. -/
theorem offsetLowBitsAreIgnored : Obligations.OffsetLowBitsAreIgnored := by
  intro s off v es ho
  have ht : targetOf off = targetOf (off &&& 0xFFC) := targetOf_congr (and_mask_word off).symm
  refine ⟨?_, ?_, fun h => ⟨_, step_read ho h⟩, fun h => ⟨_, step_write ho h⟩⟩
  · simp only [State.readOff, ht]
  · simp only [State.writeOff, ht]

/-- Settles O14: a read answers and leaves all else, so that a second one meets the same engine. -/
theorem readsHaveNoSideEffects : Obligations.ReadsHaveNoSideEffects :=
  fun s _ _ ho => ⟨step_read ho, fun hev =>
    ⟨_, _, step_read ho hev, step_read ho rfl, rfl, fun a => readByte_hostSide s _ _ a⟩⟩

/-! ### Writes by target -/

theorem gated_ne_idle {s s' : State} (h : s.seq ≠ .idle) : s.gated s' = { s with wign := true } :=
  if_pos ((busy_iff_ne_idle s).mpr h)

theorem writeCmd_ne_idle {s : State} (h : s.seq ≠ .idle) (v : Word) : s.writeCmd v = { s with ovr := true } := by
  obtain ⟨-, hw⟩ | ⟨hq, -⟩ := writeCmd_cases s v
  · exact hw
  · exact absurd hq h

/-- Settles O15: the target of each row of R68's table, and the effect of a write of it. -/
theorem writeEffectByTarget : Obligations.WriteEffectByTarget := by
  intro s off v hr hlt w
  have word {n : Nat} (h : w = n) : off % 4096 / 4 = n / 4 := by omega
  have effect (T : Target) (h : T.Covers off) : s.writeOff off v = s.writeTarget v T := writeOff_of_covers hr h v
  refine ⟨fun h hq => (effect .cmd (word h)).trans (writeCmd_idle hq v),
    fun h hq => (effect .cmd (word h)).trans (writeCmd_ne_idle hq v),
    fun h => effect .status (word h),
    fun h => effect .intctl (word h),
    fun h hq => (effect .pinf (word h)).trans (gated_idle hq),
    fun h hq => (effect .qinf (word h)).trans (gated_idle hq),
    fun h hq => ?_, fun X i hi h hX hw => ?_,
    fun X i hi h hX => (effect (.big X i) ⟨hi, word h⟩).trans (writeTarget_inert hX v), ?_⟩
  · obtain h | h := h
    · exact (effect .pinf (word h)).trans (gated_ne_idle hq)
    · exact (effect .qinf (word h)).trans (gated_ne_idle hq)
  · have hput := (effect (.big X i) ⟨hi, word h⟩).trans (writeTarget_operand hX hw v)
    exact ⟨fun hq => hput.trans (gated_idle hq), fun hq => hput.trans (gated_ne_idle hq)⟩
  · rintro (h | h | h)
    · exact effect .id (word h)
    · exact effect .rinf (word h)
    · exact effect .reserved (reserved_covers hlt (by omega))

/-! ### Accesses without a meaning -/

theorem access_size {s : State} {off size : Nat} (ho : off < 4096) (hs : size ≠ 4) (act : Nat → State) :
    s.access (s.build.base + off) size act = .refused (.accessSize size) := by
  simp [State.access, windowOffset_base ho, hs]

theorem access_outside {s : State} {addr : Nat} (h : addr < s.build.base ∨ s.build.base + 4096 ≤ addr) (size : Nat)
    (act : Nat → State) : s.access addr size act = .fault (.outsideWindow addr) := by
  have hn : windowOffset s.build addr = none := if_neg (by omega)
  simp [State.access, hn]

/-- Settles O12: the port refuses the size. -/
theorem accessOfAnotherSizeIsRefused : Obligations.AccessOfAnotherSizeIsRefused :=
  fun s _ _ _ es ho hs => ⟨fun hev => (step_cons hev).trans (access_size (s := s.withEvents es) ho hs _),
    fun hev => (step_cons hev).trans (access_size (s := s.withEvents es) ho hs _)⟩

/-- Settles O13: the address has no offset in the window. -/
theorem accessOutsideTheWindowFaults : Obligations.AccessOutsideTheWindowFaults :=
  fun s _ _ _ es h => ⟨fun hev => (step_cons hev).trans (access_outside (s := s.withEvents es) h _ _),
    fun hev => (step_cons hev).trans (access_outside (s := s.withEvents es) h _ _)⟩

end Sys2Proof.Machine
end

