-- ==== Sys2Proof/Proofs/Decoder.lean ====
section
/-! PROOFS. The decoder and the encoder (R80, R82, R84, R85): which words are commands, which are illegal, and how an
accepted illegal word completes (R221). -/

namespace Sys2Proof

/-! ### Fields and bytes of a word -/

/-- R80: a word is its RSV field over its OP field. -/
theorem rsvField_append_opField (v : Word) : rsvField v ++ opField v = v := BitVec.extractLsb'_append_extractLsb'

/-- R80: a word with RSV clear is determined by its OP field. -/
theorem eq_zero_append_iff {v : Word} {op : BitVec 8} : v = 0#24 ++ op ↔ rsvField v = 0#24 ∧ opField v = op := by
  constructor
  · rintro rfl
    exact ⟨BitVec.extractLsb'_append_eq_left, BitVec.extractLsb'_append_eq_right⟩
  · rintro ⟨hr, ho⟩
    rw [← rsvField_append_opField v, hr, ho]

/-- R80: RSV is zero when the bits from 8 up are. -/
theorem rsvField_eq_zero_iff (v : Word) : rsvField v = 0#24 ↔ v.toNat / 2 ^ 8 = 0 := by
  have hv := v.isLt
  rw [← BitVec.toNat_inj, rsvField, BitVec.extractLsb'_toNat, Nat.shiftRight_eq_div_pow, BitVec.toNat_ofNat]
  omega

theorem opField_toNat (v : Word) : (opField v).toNat = v.toNat % 2 ^ 8 := by
  rw [opField, BitVec.extractLsb'_toNat, Nat.shiftRight_zero]

/-- R65: the four bytes of a word, put together again, are the word. -/
theorem decodeBytes_bytesOfWord (v : Word) : decodeBytes (bytesOfWord v) = decode v := by
  have h : wordOfBytes (v.extractLsb' 0 8) (v.extractLsb' 8 8) (v.extractLsb' 16 8) (v.extractLsb' 24 8) = v := by
    rw [wordOfBytes, BitVec.extractLsb'_append_extractLsb'_eq_extractLsb' (show 24 = 16 + 8 from rfl),
      BitVec.extractLsb'_append_extractLsb'_eq_extractLsb' (show 16 = 8 + 8 from rfl),
      BitVec.extractLsb'_append_extractLsb'_eq_extractLsb' (show 8 = 0 + 8 from rfl)]
    exact BitVec.extractLsb'_eq_self
  exact congrArg decode h

/-! ### The opcode map -/

/-- R82: the map has exactly the ten opcodes `{CLASS, FN}`. -/
theorem opcodeMap_eq_some_iff {op : BitVec 8} {i : Instr} : opcodeMap op = some i ↔ op = opClass i ++ opFn i := by
  constructor
  · intro h
    simp only [opcodeMap, ite_eq_iff, reduceCtorEq, and_false, or_false, Option.some.injEq] at h
    iterate 9
      obtain ⟨rfl, rfl⟩ | ⟨-, h⟩ := h
      · rfl
    obtain ⟨rfl, rfl⟩ := h
    rfl
  · rintro rfl
    cases i <;> rfl

/-- R84: the opcodes that are no command's. -/
theorem opcodeMap_eq_none_iff {op : BitVec 8} : opcodeMap op = none ↔
    op.toNat = 0 ∨ (0x06 ≤ op.toNat ∧ op.toNat ≤ 0x10) ∨ 0x16 ≤ op.toNat := by
  simp only [opcodeMap, ite_eq_iff, reduceCtorEq, and_false, false_or, and_true, ← BitVec.toNat_inj,
    BitVec.toNat_ofNat]
  omega

/-! ### The decoder -/

/-- R82: a word selects a command exactly when RSV is clear and OP is the command's. -/
theorem decode_eq_command_iff {v : Word} {i : Instr} : decode v = .command i ↔ v = encode i := by
  rw [encode, eq_zero_append_iff, ← opcodeMap_eq_some_iff, decode]
  by_cases hr : rsvField v = 0#24
  · cases opcodeMap (opField v) <;> simp [hr]
  · simp [hr]

@[simp] theorem decode_encode (i : Instr) : decode (encode i) = .command i := decode_eq_command_iff.mpr rfl

@[simp] theorem decodeBytes_encodeBytes (i : Instr) : decodeBytes (encodeBytes i) = .command i :=
  (decodeBytes_bytesOfWord _).trans (decode_encode i)

/-- R84: a word is illegal when RSV is not clear or OP is no opcode. -/
theorem decode_illegal_iff (v : Word) :
    (∃ why, decode v = .illegal why) ↔ rsvField v ≠ 0#24 ∨ opcodeMap (opField v) = none := by
  rw [decode]
  by_cases hr : rsvField v = 0#24
  · cases opcodeMap (opField v) <;> simp [hr]
  · simp [hr]

/-- The rows of R82's map: match value and command. -/
def opcodeTable : List (Word × Instr) :=
  [(0x00000001#32, .padd), (0x00000002#32, .pdbl), (0x00000003#32, .pneg), (0x00000004#32, .peq),
    (0x00000005#32, .psmul), (0x00000011#32, .fadd), (0x00000012#32, .fsub), (0x00000013#32, .fmul),
    (0x00000014#32, .fmont), (0x00000015#32, .finv)]

/-- R80, R82: every match value is the word its command encodes to. -/
theorem opcodeTable_encode : ∀ row ∈ opcodeTable, row.1 = encode row.2 := by decide

/-- Settles O2: a row's match value is its command's word, and only that word decodes to the command. -/
theorem wordSelectsCommandExactlyOnMatch : Obligations.WordSelectsCommandExactlyOnMatch :=
  ⟨fun row hrow _ => opcodeTable_encode row hrow ▸ decode_eq_command_iff, fun _ _ => decode_eq_command_iff,
    decodeBytes_encodeBytes⟩

/-- Settles O1: each match value is its command's word, and decodes back. -/
theorem tableWordsDecode : Obligations.TableWordsDecode :=
  ⟨decode_encode .padd, decode_encode .pdbl, decode_encode .pneg, decode_encode .peq, decode_encode .psmul,
    decode_encode .fadd, decode_encode .fsub, decode_encode .fmul, decode_encode .fmont, decode_encode .finv,
    decodeBytes_encodeBytes .finv⟩

namespace Machine

/-- R221: the completion step of an illegal word reports ILLEGAL. -/
theorem completionStep_illegal {s : State} {v : Word} {why : IllegalWord} (hr : s.rst = false) (hq : s.seq = .busy v)
    (hd : decode v = .illegal why) : s.completionStep = .next (s.raiseError .illegal) := by
  simp [State.completionStep, inFlight_busy hr hq, hd]

/-- Settles O3: the fields of an illegal word in numbers, and the error its completion raises. -/
theorem illegalWordsCompleteWithIllegal : Obligations.IllegalWordsCompleteWithIllegal := by
  refine ⟨fun v => ?_, fun _ _ _ => completionStep_illegal⟩
  rw [decode_illegal_iff, opcodeMap_eq_none_iff, opField_toNat, ne_eq, rsvField_eq_zero_iff]

end Machine

end Sys2Proof
end

