-- ==== Sys2Proof/Proofs/Noninterference.lean ====
section
/-! PROOFS. A command's result is a function of the registers it reads (R27, R46, R83). -/

namespace Sys2Proof.Machine

/-- What a command's pseudocode comes to is the same in two states that agree on what it reads: with the shared
registers identified, it mentions no other field. -/
theorem exec_finishes_alike {i : Instr} {s s' : State} (h : agreeOnOperands i s s') :
    ∃ r, exec i s = s.finish r ∧ exec i s' = s'.finish r := by
  cases s; cases s'
  cases i with
  | padd | peq =>
    obtain ⟨rfl, rfl, rfl, rfl, rfl, rfl, rfl⟩ := h
    exact ⟨_, rfl, rfl⟩
  | pdbl | pneg =>
    obtain ⟨rfl, rfl, rfl, rfl⟩ := h
    exact ⟨_, rfl, rfl⟩
  | psmul =>
    obtain ⟨rfl, rfl, rfl, rfl, rfl, rfl⟩ := h
    exact ⟨_, rfl, rfl⟩
  | fadd | fsub | fmul | fmont =>
    obtain ⟨rfl, rfl, rfl⟩ := h
    exact ⟨_, rfl, rfl⟩
  | finv =>
    obtain ⟨rfl, rfl⟩ := h
    exact ⟨_, rfl, rfl⟩

section Alike
variable {s s' t t' : State} (hb : s.build = s'.build) (hx : s.rx = s'.rx) (hy : s.ry = s'.ry)
  (hi : s.rinf = s'.rinf) (he : s.eq = s'.eq)
include hb hx hy hi he

/-- R14, R83: the same end of a command leaves the same results where R and EQ were the same. -/
theorem finish_agreeOnResults {r : Except ErrCode Commit} (h : s.finish r = .next t) (h' : s'.finish r = .next t') :
    agreeOnResults t t' := by
  cases s; cases s'
  obtain rfl := hb
  obtain rfl := hx
  obtain rfl := hy
  obtain rfl := hi
  obtain rfl := he
  obtain ⟨w, rfl, rfl⟩ | ⟨e, rfl, rfl⟩ := finish_cases h <;> cases h'
  · match w with
    | .point .identity | .point (.affine _ _) | .field _ | .equal _ => exact ⟨rfl, rfl, rfl, rfl, rfl, rfl⟩
  · exact ⟨rfl, rfl, rfl, rfl, rfl, rfl⟩

end Alike

/-- Settles O47: the two runs of the command finish the same way, from the same R and EQ. -/
theorem commandsReadOnlyTheirOperands : Obligations.CommandsReadOnlyTheirOperands := by
  intro i s s' t t' hag hx hy hi he h h'
  obtain ⟨r, hr, hr'⟩ := exec_finishes_alike hag
  obtain ⟨hb, -⟩ := hag
  exact finish_agreeOnResults hb hx hy hi he (hr.symm.trans h) (hr'.symm.trans h')

end Sys2Proof.Machine
end

