-- ==== Sys2Proof/Proofs/HostWrites.lean ====
section
/-! PROOFS. The host operation WRB (R86): the writes it expands to load an operand register word by word (R68). -/

namespace Sys2Proof.Machine

/-! ### Writing the words of a register -/

/-- The register once word `i` has been written `f i`, for each `i` of the list in turn. -/
def storeWords (f : Nat → Word) (is : List Nat) (X : BigReg) : BigReg := is.foldl (fun X i => setWord X i (f i)) X

@[simp] theorem storeWords_length (f : Nat → Word) (is : List Nat) (X : BigReg) :
    (storeWords f is X).length = X.length := by
  induction is generalizing X with
  | nil => rfl
  | cons i is ih => exact (ih _).trans (setWord_length ..)

/-- Words 0 to `n - 1`, word 0 first, leave each what was written to it. -/
theorem getWord_storeWords_range {f : Nat → Word} {X : BigReg} {n j : Nat} (hn : n ≤ X.length) (hj : j < n) :
    getWord (storeWords f (List.range n) X) j = f j := by
  induction n with
  | zero => omega
  | succ n ih =>
    have hlast : storeWords f (List.range (n + 1)) X = setWord (storeWords f (List.range n) X) n (f n) := by
      simp [storeWords, List.range_succ]
    rw [hlast]
    by_cases h : n = j
    · subst h
      exact getWord_setWord_same _ (by simpa using hn)
    · rw [getWord_setWord_other _ h]
      exact ih (by omega) (by omega)

/-- R11: registers of one length with the same words hold the same integer. -/
theorem uint_congr {X Y : BigReg} (hl : X.length = Y.length) (h : ∀ i < X.length, getWord X i = getWord Y i) :
    uint X = uint Y := by
  rw [uint_eq_sum, uint_eq_sum, ← hl]
  exact Finset.sum_congr rfl fun i hi => by rw [h i (Finset.mem_range.mp hi)]

/-- R11: the words of an integer, stored one by one, are the integer. -/
theorem uint_storeWords_wordOf {X : BigReg} {v : Nat} (hv : v < 2 ^ (32 * X.length)) :
    uint (storeWords (fun i => BitVec.ofNat 32 (wordOf v i)) (List.range X.length) X) = v := by
  calc uint (storeWords (fun i => BitVec.ofNat 32 (wordOf v i)) (List.range X.length) X)
      = uint (bigOfNat X.length v) := uint_congr (by simp) fun i hi => by
        have hi : i < X.length := by simpa using hi
        rw [getWord_storeWords_range le_rfl hi, getWord_bigOfNat v hi]
    _ = v := by rw [uint_bigOfNat, Nat.mod_eq_of_lt hv]

/-! ### The host's writes -/

@[simp] theorem putBig_seq (s : State) (X : BigName) (r : BigReg) : (s.putBig X r).seq = s.seq := by
  cases X <;> rfl

theorem putBig_putBig (s : State) (X : BigName) (r r' : BigReg) : (s.putBig X r).putBig X r' = s.putBig X r' := by
  cases X <;> rfl

@[simp] theorem putBig_big (s : State) (X : BigName) : s.putBig X (s.big X) = s := by
  cases X <;> rfl

theorem big_withEvents (s : State) (es : List Event) (X : BigName) : (s.withEvents es).big X = s.big X := rfl

theorem run_succ {s t : State} (h : step s = .next t) (n : Nat) :
    Host.Core.run Sys2Proof.core (n + 1) s = Host.Core.run Sys2Proof.core n t := by
  have hs : Sys2Proof.core.step s = .next t := h
  simp only [Host.Core.run, hs]

section Writes
variable {b : Build} (hw : b.curve.words ≤ 32) {X : BigName} (hX : X.isOperand = true)
include hw hX

/-- R68: the step of a write to a stored word of an operand register stores it, and changes nothing else. -/
theorem step_writeOperand {s : State} {i : Nat} {v : Word} {es : List Event} (hb : s.build = b)
    (hi : i < b.curve.words) (hr : s.rst = false) (hq : s.seq = .idle)
    (hev : s.events = writeEvent b (X.offset i) v :: es) :
    step s = .next ((s.putBig X (setWord (s.big X) i v)).withEvents es) := by
  subst hb
  have hi32 : i < 32 := hi.trans_le hw
  have hoff : X.offset i < 4096 := by have := offset_bounds X hi32; omega
  rw [step_write hoff hev, writeOff_operand (s := s.withEvents es) hX hi hr hq hi32, putBig_withEvents]
  rfl

/-- R86: a list of writes to stored words of an operand register stores them one by one, and changes nothing else. -/
theorem run_writeEvents (f : Nat → Word) {es : List Event} {is : List Nat} (hi : ∀ i ∈ is, i < b.curve.words)
    {s : State} (hb : s.build = b) (hr : s.rst = false) (hq : s.seq = .idle)
    (hev : s.events = (is.map fun i => writeEvent b (X.offset i) (f i)) ++ es) :
    Host.Core.run Sys2Proof.core is.length s = .next ((s.putBig X (storeWords f is (s.big X))).withEvents es) := by
  induction is generalizing s with
  | nil =>
    have hs : s.withEvents es = s := (congrArg s.withEvents hev).symm
    change Host.Outcome.next s = .next ((s.putBig X (s.big X)).withEvents es)
    rw [putBig_big, hs]
  | cons i is ih =>
    obtain ⟨hi0, hi⟩ := List.forall_mem_cons.mp hi
    have hrest := ih hi (s := (s.putBig X (setWord (s.big X) i (f i))).withEvents
      ((is.map fun i => writeEvent b (X.offset i) (f i)) ++ es)) ((putBig_build ..).trans hb)
      ((putBig_rst ..).trans hr) ((putBig_seq ..).trans hq) rfl
    rw [big_withEvents, big_putBig_same hX, putBig_withEvents, putBig_putBig] at hrest
    exact (run_succ (step_writeOperand hw hX hb hi0 hr hq hev) _).trans hrest

end Writes

/-- Settles O58: the run stores word by word the digits of `v`, and those words make up `v`. -/
theorem writeBigLoadsTheRegister : Obligations.WriteBigLoadsTheRegister := by
  intro s X v es hv hf hr hq hX hlt hev
  have hlen := hf.operand_length hX
  have hrun := run_writeEvents (valid_words_le hv) hX _ (fun _ => List.mem_range.mp) rfl hr hq hev
  rw [List.length_range] at hrun
  refine ⟨_, hrun, ?_⟩
  rw [big_withEvents, big_putBig_same hX, ← hlen]
  exact ⟨uint_storeWords_wordOf (by rwa [hlen]), rfl⟩

end Sys2Proof.Machine
end

