-- ==== Sys2Proof/Proofs/StepInvariant.lean ====
section
/-! PROOFS. Every step keeps the invariant (R115, R185, R206, R250, R260): one lemma for each thing that can happen at the
engine. -/

namespace Sys2Proof.Machine

variable {s t : State}

/-! ### The host's side of the port -/

/-- The invariant says nothing of what the host has read or will do next, in reset or out of it. -/
theorem Inv.withHostSide (hi : Inv s) (r : Option Word) (es : List Event) :
    Inv { s with response := r, events := es } :=
  { hi with
    regs := { hi.regs with }
    loop := fun l hl => { hi.loop l hl with }
    reset := fun hr => congrArg (fun s : State => { s with response := r, events := es }) (hi.reset hr) }

/-- With `rst` released the invariant asks nothing of the reset values. -/
theorem reset_of_released (hr : s.rst = false) : s.rst = true → s = s.heldInReset :=
  fun h => absurd h (by simp [hr])

/-- With `rst` released the invariant lets EQ, OVR, WIGN and IE be anything, and DONE be cleared. -/
theorem Inv.withFlags (hi : Inv s) (hr : s.rst = false) {done : Bool} (hd : done = true → s.done = true)
    (eq ovr wign ie : Bool) : Inv { s with done := done, eq := eq, ovr := ovr, wign := wign, ie := ie } := by
  refine { hi with
    regs := { hi.regs with }
    inFlight := fun v hq => ?_
    loop := fun l hl => { hi.loop l hl with }
    reset := reset_of_released hr }
  obtain ⟨hcmd, hdone, herr⟩ := hi.inFlight v hq
  exact ⟨hcmd, Bool.eq_false_iff.mpr fun h => by simp [hd h] at hdone, herr⟩

/-- A hidden loop is that of a command in flight. -/
theorem smul_none_of_idle (hi : Inv s) (hq : s.seq = .idle) : s.smul = none := by
  refine Option.eq_none_iff_forall_ne_some.mpr fun l hl => ?_
  obtain ⟨v, hv, -⟩ := (hi.loop l hl).command
  simp [hq] at hv

/-- R230: an idle engine has no hidden loop, so the invariant lets its operands be anything of their width. -/
theorem Inv.withOperands (hi : Inv s) (hr : s.rst = false) (hq : s.seq = .idle) {px py qx qy k : BigReg}
    {pinf qinf : Bool} (hf : RegsFit { s with px := px, py := py, qx := qx, qy := qy, k := k }) :
    Inv { s with px := px, py := py, qx := qx, qy := qy, k := k, pinf := pinf, qinf := qinf } :=
  { hi with
    regs := { hf with }
    loop := fun l hl => absurd (hl.symm.trans (smul_none_of_idle (s := s) hi hq)) (by simp)
    reset := reset_of_released hr }

/-- R260: an accepted word is the one CMD shows, and nothing is reported yet. -/
theorem Inv.accept (hi : Inv s) (hr : s.rst = false) (v : Word) : Inv (s.accept v) :=
  { hi with
    regs := { hi.regs with }
    noDenom0 := nofun
    inFlight := fun _ hq => ⟨Seq.busy.inj hq, rfl, rfl⟩
    loop := nofun
    reset := reset_of_released hr }

theorem Inv.putBig (hi : Inv s) (hr : s.rst = false) (hq : s.seq = .idle) (X : BigName) (i : Nat) (v : Word) :
    Inv (s.putBig X (setWord (s.big X) i v)) := by
  have hf := hi.regs
  cases X with
  | px => exact hi.withOperands hr hq { hf with px := (setWord_length ..).trans hf.px }
  | py => exact hi.withOperands hr hq { hf with py := (setWord_length ..).trans hf.py }
  | qx => exact hi.withOperands hr hq { hf with qx := (setWord_length ..).trans hf.qx }
  | qy => exact hi.withOperands hr hq { hf with qy := (setWord_length ..).trans hf.qy }
  | k => exact hi.withOperands hr hq { hf with k := (setWord_length ..).trans hf.k }
  | rx | ry | pMod | montR2 => exact hi

theorem Inv.writeEffect {v : Word} (hi : Inv s) (hr : s.rst = false) (h : WriteEffect s v t) : Inv t := by
  cases h with
  | ignored => exact hi
  | status => exact hi.withFlags hr (fun h => (Bool.and_eq_true_iff.mp h).1) _ _ _ _
  | intctl | overrun | dropped => exact hi.withFlags hr id _ _ _ _
  | accepted => exact hi.accept hr v
  | pinf hq | qinf hq => exact hi.withOperands hr hq { hi.regs with }
  | operand hq X i => exact hi.putBig hr hq X i v

/-- R251: a port write keeps the invariant; in reset it is ignored. -/
theorem Inv.writeOff (hi : Inv s) (off : Nat) (v : Word) : Inv (s.writeOff off v) := by
  cases hr : s.rst with
  | true => simpa [State.writeOff, hr] using hi
  | false => exact hi.writeEffect hr (writeOff_effect s off v)

/-! ### Reset -/

/-- R250: asserting `rst` establishes the invariant on a valid build. -/
theorem inv_assertReset (h : s.build.Valid) : Inv s.assertReset :=
  { inv_resetOf h with
    regs := { (inv_resetOf h).regs with }
    loop := nofun
    reset := fun _ => rfl }

theorem Inv.releaseReset (hi : Inv s) : Inv s.releaseReset :=
  { hi with
    regs := { hi.regs with }
    loop := fun l hl => { hi.loop l hl with }
    reset := nofun }

/-! ### The end of a command -/

/-- The integers a commit writes are reduced. -/
def Commit.Reduced (p : Nat) : Commit → Prop
  | .point q => pointInRange p q = true
  | .field v => v < p
  | .equal _ => True

/-- What a command comes to in a state of the invariant: a reduced result, or an error other than DENOM0. -/
def EndsWell (p : Nat) : Except ErrCode Commit → Prop
  | .ok w    => w.Reduced p
  | .error e => e ≠ .denom0

/-- A command that checks its operands (R222) reports RANGE, or ends as its function does on checked operands. -/
theorem checked_endsWell {p : Nat} {c : Prop} [Decidable c] {r : Except ErrCode Commit} (h : c → EndsWell p r) :
    ∃ r', (if c then s.finish r else .next (s.raiseError .range)) = s.finish r' ∧ EndsWell p r' := by
  split
  · next hc => exact ⟨r, rfl, h hc⟩
  · exact ⟨.error .range, rfl, by simp [EndsWell]⟩

/-- A point function that answers a reduced point ends its command well. -/
theorem point_endsWell {p : Nat} {r : Except ErrCode Point} (h : ∃ q, r = .ok q ∧ pointInRange p q = true) :
    EndsWell p (r.map .point) := by
  obtain ⟨q, rfl, hq⟩ := h
  exact hq

/-- R106, R114: an inverse is reduced, and where there is none the error is INV0. -/
theorem execFinv_endsWell (hv : s.build.curve.Valid) :
    ∃ r, exec .finv s = s.finish r ∧ EndsWell s.build.curve.p r := by
  rw [execFinv_eq]
  cases hf : finv s.build.curve.p s.fieldA with
  | none => exact checked_endsWell (r := .error .inv0) fun _ => by simp [EndsWell]
  | some r =>
    exact checked_endsWell (r := .ok (.field r)) fun _ => ((invMod_eq_some_iff hv.prime.one_lt).mp hf).1

/-- R115, R185, R206: every command in a state of the invariant ends well. -/
theorem exec_endsWell (hi : Inv s) (i : Instr) : ∃ r, exec i s = s.finish r ∧ EndsWell s.build.curve.p r := by
  have hv := hi.build.curve
  have hp := valid_p_pos hv
  cases i with
  | padd => exact execPadd_eq s ▸ checked_endsWell fun ⟨hP, hQ⟩ => point_endsWell (padd_total hv hP hQ)
  | pdbl => exact execPdbl_eq s ▸ checked_endsWell fun hP => point_endsWell (pdbl_total hv hP)
  | pneg => exact execPneg_eq s ▸ checked_endsWell (r := .ok (.point _)) fun hP => pneg_inRange hv hP
  | peq => exact execPeq_eq s ▸ checked_endsWell (r := .ok (.equal _)) fun _ => trivial
  | psmul =>
    exact execPsmul_eq s ▸
      checked_endsWell fun hP => point_endsWell (psmulFrom_total hv hP _ _ (loopState_reduced hi))
  | fadd => exact execFadd_eq s ▸ checked_endsWell (r := .ok (.field _)) fun _ => fadd_lt hp _ _
  | fsub => exact execFsub_eq s ▸ checked_endsWell (r := .ok (.field _)) fun _ => fsub_lt hp _ _
  | fmul => exact execFmul_eq s ▸ checked_endsWell (r := .ok (.field _)) fun _ => fmul_lt hp _ _
  | fmont => exact execFmont_eq s ▸ checked_endsWell (r := .ok (.field _)) fun _ => fmont_lt hp _ _
  | finv => exact execFinv_endsWell hv

/-- R14: a command's end leaves the sequencer idle and the hidden loop empty. -/
theorem Inv.raiseError (hi : Inv s) (hr : s.rst = false) {e : ErrCode} (he : e ≠ .denom0) : Inv (s.raiseError e) :=
  { hi with
    regs := { hi.regs with }
    noDenom0 := he
    inFlight := nofun
    loop := nofun
    reset := reset_of_released hr }

/-- R45: the reduced result of a command keeps the invariant. -/
theorem Inv.apply (hi : Inv s) (hr : s.rst = false) {w : Commit} (hw : w.Reduced s.build.curve.p) :
    Inv (s.apply w) := by
  cases w with
  | point q =>
    obtain ⟨hx, hy⟩ := setR_reduced hi.build.curve hw
    cases q <;> exact { hi with
      regs := { hi.regs with rx := regOf_length .., ry := regOf_length .. }
      rxReduced := hx
      ryReduced := hy
      loop := fun l hl => { hi.loop l hl with }
      reset := reset_of_released hr }
  | field v =>
    exact { hi with
      regs := { hi.regs with rx := regOf_length .. }
      rxReduced := (uint_regOf (hw.trans (valid_p_lt_radix hi.build.curve))).trans_lt hw
      loop := fun l hl => { hi.loop l hl with }
      reset := reset_of_released hr }
  | equal b => exact hi.withFlags hr id _ _ _ _

theorem Inv.complete (hi : Inv s) (hr : s.rst = false) {w : Commit} (hw : w.Reduced s.build.curve.p) :
    Inv (s.complete w) :=
  (hi.apply hr hw).raiseError ((apply_rst s w).trans hr) nofun

theorem Inv.exec (hi : Inv s) (hr : s.rst = false) {i : Instr} (h : exec i s = .next t) : Inv t := by
  obtain ⟨r, hx, hends⟩ := exec_endsWell hi i
  obtain ⟨w, rfl, rfl⟩ | ⟨e, rfl, rfl⟩ := finish_cases (hx.symm.trans h)
  · exact hi.complete hr hends
  · exact hi.raiseError hr hends

theorem Inv.completionStep (hi : Inv s) (h : s.completionStep = .next t) : Inv t := by
  obtain ⟨-, rfl⟩ | ⟨v, hv, ⟨-, -, rfl⟩ | ⟨i, -, hx⟩⟩ := completionStep_cases h
  · exact hi
  · exact hi.raiseError (inFlight_some hv).1 (by simp)
  · exact hi.exec (inFlight_some hv).1 hx

/-! ### Every step -/

theorem Inv.handle {e : Event} (hi : Inv s) (h : s.handle e = .next t) : Inv t := by
  obtain ⟨-, off, -, -, rfl⟩ | ⟨-, off, v, -, -, rfl⟩ | ⟨-, rfl⟩ | ⟨-, hc⟩ | ⟨-, rfl⟩ | ⟨-, rfl⟩ := handle_cases h
  · exact hi.withHostSide _ _
  · exact hi.writeOff off v
  · split
    · exact hi
    · exact iterate_inv hi
  · exact hi.completionStep hc
  · exact inv_assertReset hi.build
  · exact hi.releaseReset

/-- Settles O60: by what a step can do, the completion step or the first event of the order. -/
theorem everyStepKeepsTheInvariant : Obligations.EveryStepKeepsTheInvariant := by
  intro s t hi h
  obtain ⟨-, hc⟩ | ⟨e, es, -, he⟩ := step_cases h
  · exact hi.completionStep hc
  · exact (hi.withHostSide s.response es).handle he

end Sys2Proof.Machine
end

