-- ==== Sys2Proof/Proofs/Montgomery.lean ====
section
/-! PROOFS. The Montgomery product (R105): what determines it, the conversions into and out of its domain (R109), and the
word-serial multiplier that computes it (R108). -/

namespace Sys2Proof.Machine

variable {c : CurveParams} {a b : Nat}

/-! ### The Montgomery product in `ZMod p` -/

/-- R105: `Rinv` inverts the radix. -/
theorem radix_mul_montRinv_cast (h : c.Valid) : (c.radix : ZMod c.p) * montRinv c = 1 := by
  have hr : ((c.radix * montRinv c : Nat) : ZMod c.p) = ((1 : Nat) : ZMod c.p) := by
    rw [ZMod.natCast_eq_natCast_iff', (montRinv_spec h).2, Nat.mod_eq_of_lt h.prime.one_lt]
  simpa using hr

theorem fmont_cast (c : CurveParams) (a b : Nat) : (fmont c a b : ZMod c.p) = a * b * montRinv c := by
  simp [fmont]

theorem montR2_cast (c : CurveParams) : (montR2 c : ZMod c.p) = c.radix ^ 2 := by simp [montR2]

/-- R105: the Montgomery product times the radix is the product. -/
theorem radix_mul_fmont_modEq (h : c.Valid) (a b : Nat) : c.radix * fmont c a b ≡ a * b [MOD c.p] := by
  rw [← ZMod.natCast_eq_natCast_iff]
  push_cast [fmont_cast]
  linear_combination (a * b : ZMod c.p) * radix_mul_montRinv_cast h

theorem coprime_two_pow_of_odd {p : Nat} (hp : p % 2 = 1) (n : Nat) : Nat.Coprime p (2 ^ n) :=
  Nat.Coprime.pow_right n (Nat.coprime_two_right.mpr (Nat.odd_iff.mpr hp))

/-- The radix is prime to an odd modulus. -/
theorem coprime_radix (h : c.Valid) : Nat.Coprime c.p c.radix := coprime_two_pow_of_odd (valid_p_odd h) c.width

/-- R105: the Montgomery product is the one reduced integer whose product with the radix is `a * b` modulo `p`. -/
theorem eq_fmont_of_radix_mul_modEq (h : c.Valid) {v : Nat} (hv : v < c.p) (hm : c.radix * v ≡ a * b [MOD c.p]) :
    v = fmont c a b :=
  (Nat.ModEq.cancel_left_of_coprime (coprime_radix h) (hm.trans (radix_mul_fmont_modEq h a b).symm)).eq_of_lt_of_lt hv
    (fmont_lt (valid_p_pos h) a b)

/-- R105: `Rinv` is the one reduced integer that inverts the radix. -/
theorem eq_montRinv (h : c.Valid) {v : Nat} (hv : v < c.p) (hm : c.radix * v % c.p = 1) : v = montRinv c := by
  obtain ⟨hlt, hone⟩ := montRinv_spec h
  exact (Nat.ModEq.cancel_left_of_coprime (coprime_radix h) (hm.trans hone.symm)).eq_of_lt_of_lt hv hlt

/-! ### The conversions -/

/-- Settles O52: each identity holds in `ZMod p`, where `Rinv` cancels the radix, and both sides are reduced. -/
theorem montgomeryDomainIdentities : Obligations.MontgomeryDomainIdentities := by
  intro c x a b h hx _ _
  have hp := valid_p_pos h
  have hR := radix_mul_montRinv_cast h
  have hin : fmont c x (montR2 c) = x * 2 ^ c.width % c.p := by
    refine eq_of_cast_eq (fmont_lt hp _ _) (Nat.mod_lt _ hp) ?_
    change _ = ((x * c.radix % c.p : Nat) : ZMod c.p)
    push_cast [fmont_cast, montR2_cast, ZMod.natCast_mod]
    linear_combination (x * c.radix : ZMod c.p) * hR
  refine ⟨hin, by rw [fmont, Nat.mul_one], eq_of_cast_eq (fmont_lt hp _ _) (fmul_lt hp _ _) ?_, ?_,
    eq_of_cast_eq (fmont_lt hp _ _) hx ?_⟩
  · push_cast [fmont_cast, montR2_cast, fmul_cast]
    linear_combination (a * b * (c.radix * montRinv c + 1) : ZMod c.p) * hR
  · rw [fmont, Nat.mul_one, Nat.one_mul, Nat.mod_eq_of_lt (montRinv_spec h).1]
  · push_cast [fmont_cast, montR2_cast]
    linear_combination (x * (c.radix * montRinv c + 1) : ZMod c.p) * hR

/-! ### The word-serial multiplier -/

/-- R108: `p'` is the negated inverse of an odd `p` modulo a word. -/
theorem one_add_ciosFactor_mul_modEq {p : Nat} (hp : p % 2 = 1) : 1 + ciosFactor p * p ≡ 0 [MOD 2 ^ 32] := by
  obtain ⟨r, hr, hone⟩ := Nat.exists_mul_mod_eq_one_of_coprime (coprime_two_pow_of_odd hp 32) (by norm_num)
  have hf : ciosFactor p = (2 ^ 32 - r) % 2 ^ 32 := by
    rw [ciosFactor, (invMod_eq_some_iff (by norm_num)).mpr ⟨hr, hone⟩, Option.getD_some]
  calc 1 + ciosFactor p * p
      ≡ p * r + (2 ^ 32 - r) * p [MOD 2 ^ 32] := hf ▸ .add (.symm hone) ((Nat.mod_modEq _ _).mul_right p)
    _ = 2 ^ 32 * p := by rw [Nat.mul_comm p r, ← Nat.add_mul, Nat.add_sub_cancel' hr.le]
    _ ≡ 0 [MOD 2 ^ 32] := Nat.modEq_zero_iff_dvd.mpr (Nat.dvd_mul_right _ _)

/-- R108: an iteration adds the multiple of `p` that makes the division by a word exact. -/
theorem word_mul_ciosStep {p : Nat} (hp : p % 2 = 1) (a b i t : Nat) :
    ∃ m < 2 ^ 32, 2 ^ 32 * ciosStep p a b i t = t + wordOf a i * b + m * p := by
  rw [ciosStep]
  generalize t + wordOf a i * b = t1
  refine ⟨t1 % 2 ^ 32 * ciosFactor p % 2 ^ 32, Nat.mod_lt _ (by norm_num), Nat.mul_div_cancel' ?_⟩
  rw [← Nat.modEq_zero_iff_dvd]
  calc t1 + t1 % 2 ^ 32 * ciosFactor p % 2 ^ 32 * p
      ≡ t1 + t1 * ciosFactor p * p [MOD 2 ^ 32] :=
        .add_left _ (((Nat.mod_modEq _ _).trans ((Nat.mod_modEq _ _).mul_right _)).mul_right p)
    _ = t1 * (1 + ciosFactor p * p) := by ring
    _ ≡ t1 * 0 [MOD 2 ^ 32] := (one_add_ciosFactor_mul_modEq hp).mul_left t1

/-- The low `i + 1` words of an integer are word `i` above its low `i` words. -/
theorem mod_word_succ (a i : Nat) : a % 2 ^ (32 * (i + 1)) = a % 2 ^ (32 * i) + 2 ^ (32 * i) * wordOf a i := by
  rw [Nat.mul_succ, pow_add, Nat.mod_mul, wordOf]

/-- R108: after `i` iterations the accumulator stands for the product of the low `i` words of `a`, divided by the radix of
`i` words. -/
theorem radix_mul_ciosLoop_modEq {p : Nat} (hp : p % 2 = 1) (a b i : Nat) :
    2 ^ (32 * i) * ciosLoop p a b i ≡ a % 2 ^ (32 * i) * b [MOD p] := by
  induction i with
  | zero => simp [ciosLoop, Nat.mod_one, Nat.ModEq]
  | succ i ih =>
    obtain ⟨m, -, hm⟩ := word_mul_ciosStep hp a b i (ciosLoop p a b i)
    calc 2 ^ (32 * (i + 1)) * ciosLoop p a b (i + 1)
        = 2 ^ (32 * i) * (2 ^ 32 * ciosStep p a b i (ciosLoop p a b i)) := by rw [ciosLoop]; ring
      _ = 2 ^ (32 * i) * ciosLoop p a b i + 2 ^ (32 * i) * wordOf a i * b + p * (2 ^ (32 * i) * m) := by
        rw [hm]; ring
      _ ≡ a % 2 ^ (32 * i) * b + 2 ^ (32 * i) * wordOf a i * b + 0 [MOD p] :=
        (ih.add_right _).add (Nat.modEq_zero_iff_dvd.mpr (Nat.dvd_mul_right _ _))
      _ = a % 2 ^ (32 * (i + 1)) * b := by rw [mod_word_succ]; ring

/-- R108: the accumulator stays below `2p`, so that one subtraction reduces it. -/
theorem ciosLoop_lt {p b : Nat} (hp : p % 2 = 1) (hb : b < p) (a i : Nat) : ciosLoop p a b i < 2 * p := by
  induction i with
  | zero => simp only [ciosLoop]; omega
  | succ i ih =>
    obtain ⟨m, hmlt, hm⟩ := word_mul_ciosStep hp a b i (ciosLoop p a b i)
    have hw : wordOf a i < 2 ^ 32 := Nat.mod_lt _ (by norm_num)
    have hwb : wordOf a i * b ≤ (2 ^ 32 - 1) * p := Nat.mul_le_mul (by omega) hb.le
    have hmp : m * p ≤ (2 ^ 32 - 1) * p := Nat.mul_le_mul_right p (by omega)
    rw [ciosLoop]
    omega

/-- R108: the final subtraction reduces an accumulator below `2p`. -/
theorem cios_eq_mod (h : c.Valid) (hb : b < c.p) (a : Nat) : cios c a b = ciosLoop c.p a b c.words % c.p := by
  have hlt := ciosLoop_lt (valid_p_odd h) hb a c.words
  rw [cios]
  split
  · next hle => rw [Nat.mod_eq_sub_mod hle, Nat.mod_eq_of_lt (by omega)]
  · next hnle => rw [Nat.mod_eq_of_lt (by omega)]

/-- Settles O53: the loop runs over all words of `a`, so its reduced accumulator has the property that determines the
Montgomery product. -/
theorem wordSerialMultiplierConforms : Obligations.WordSerialMultiplierConforms := by
  intro c a b h ha hb
  rw [cios_eq_mod h hb]
  refine eq_fmont_of_radix_mul_modEq h (Nat.mod_lt _ (valid_p_pos h)) ?_
  calc c.radix * (ciosLoop c.p a b c.words % c.p)
      ≡ c.radix * ciosLoop c.p a b c.words [MOD c.p] := (Nat.mod_modEq _ _).mul_left _
    _ ≡ a % c.radix * b [MOD c.p] := radix_mul_ciosLoop_modEq (valid_p_odd h) a b c.words
    _ = a * b := by rw [Nat.mod_eq_of_lt (ha.trans (valid_p_lt_radix h))]

end Sys2Proof.Machine
end

