-- ==== Sys2Proof/Proofs/FieldCommands.lean ====
section
/-! PROOFS. What each field command leaves in RX, or the error it reports (R110 to R114). -/

namespace Sys2Proof.Machine

variable {s : State} {i : Instr} {v : Nat}

/-- R29: a reduced result is the integer RX holds after the command. -/
theorem uint_complete_field_rx (h : s.build.curve.Valid) (hv : v < s.build.curve.p) :
    uint (s.complete (.field v)).rx = v := uint_regOf (hv.trans (valid_p_lt_radix h))

/-- R110 to R113: a command of two operands that answers `v` on reduced ones. -/
def AnswersChecked (i : Instr) (s : State) (v : Nat) : Prop :=
  exec i s = if s.fieldA < s.build.curve.p ∧ s.fieldB < s.build.curve.p then .next (s.complete (.field v))
    else .next (s.raiseError .range)

theorem AnswersChecked.reduced (h : AnswersChecked i s v) (hA : uint s.px < s.build.curve.p)
    (hB : uint s.qx < s.build.curve.p) : exec i s = .next (s.complete (.field v)) := h.trans (if_pos ⟨hA, hB⟩)

/-- R222: an operand that is not reduced is reported. -/
theorem AnswersChecked.range (h : AnswersChecked i s v)
    (hAB : s.build.curve.p ≤ uint s.px ∨ s.build.curve.p ≤ uint s.qx) : exec i s = .next (s.raiseError .range) :=
  h.trans (if_neg fun ⟨hA, hB⟩ => hAB.elim hA.not_ge hB.not_ge)

/-- Settles O31: the sum is reduced, so RX holds it. -/
theorem faddResult : Obligations.FaddResult := by
  intro s h
  have hrun : AnswersChecked .fadd s _ := execFadd_eq s
  have hrx := uint_complete_field_rx h (fadd_lt (valid_p_pos h) s.fieldA s.fieldB)
  exact ⟨fun hA hB => ⟨_, hrun.reduced hA hB, hrx, rfl⟩, hrun.range⟩

/-- R102: a difference below zero wraps once. -/
theorem fsub_add_of_lt {p a b : Nat} (hb : b < p) (hab : a < b) : fsub p a b + b = a + p := by
  have hmod : ((a : Int) - b) % p = a - b + p := by
    rw [← Int.add_emod_right, Int.emod_eq_of_lt (by omega) (by omega)]
  have := fsub_intCast (by omega : 0 < p) a b
  omega

/-- Settles O32: the residue is reduced, so RX holds it. -/
theorem fsubResult : Obligations.FsubResult := by
  intro s h
  have hp := valid_p_pos h
  have hrun : AnswersChecked .fsub s _ := execFsub_eq s
  have hrx := uint_complete_field_rx h (fsub_lt hp s.fieldA s.fieldB)
  refine ⟨fun hA hB => ⟨_, hrun.reduced hA hB, ?_, fun hlt => ?_, rfl⟩, hrun.range⟩
  · rw [hrx]
    exact fsub_intCast hp _ _
  · rw [hrx]
    exact fsub_add_of_lt hB hlt

/-- Settles O33: the product is reduced, so RX holds it. -/
theorem fmulResult : Obligations.FmulResult := by
  intro s h
  have hrun : AnswersChecked .fmul s _ := execFmul_eq s
  have hrx := uint_complete_field_rx h (fmul_lt (valid_p_pos h) s.fieldA s.fieldB)
  exact ⟨fun hA hB => ⟨_, hrun.reduced hA hB, hrx, rfl⟩, hrun.range⟩

/-- Settles O34: RX holds the Montgomery product, which the radix and its one inverse determine. -/
theorem fmontResult : Obligations.FmontResult := by
  intro s h
  have hlt := fmont_lt (valid_p_pos h) s.fieldA s.fieldB
  have hrun : AnswersChecked .fmont s _ := execFmont_eq s
  have hrx := uint_complete_field_rx h hlt
  refine ⟨fun hA hB => ⟨_, hrun.reduced hA hB, ?_, ?_, fun ri _ hri hinv => ?_, rfl⟩, hrun.range⟩ <;> rw [hrx]
  · exact hlt
  · exact radix_mul_fmont_modEq h s.fieldA s.fieldB
  · rw [eq_montRinv h hri hinv]
    rfl

/-- R106: every reduced integer but 0 has an inverse. -/
theorem finv_of_pos {p a : Nat} (hp : p.Prime) (h0 : 0 < a) (ha : a < p) : ∃ r, finv p a = some r := by
  rw [← Option.isSome_iff_exists, finv_isSome_iff hp, Nat.mod_eq_of_lt ha]
  exact h0.ne'

/-- R106: 0 has none. -/
theorem finv_zero {p : Nat} (hp : p.Prime) : finv p 0 = none := by
  rw [← Option.not_isSome_iff_eq_none, finv_isSome_iff hp, Nat.zero_mod]
  exact not_not.mpr rfl

/-- Settles O35: by whether A is reduced and has an inverse. -/
theorem finvResult : Obligations.FinvResult := by
  intro s h
  have hone := h.prime.one_lt
  refine ⟨fun h0 hA => ?_, fun h0 => ?_, fun hA => (execFinv_eq s).trans (if_neg hA.not_gt)⟩
  · obtain ⟨r, hr⟩ := finv_of_pos h.prime h0 hA
    obtain ⟨hlt, hmul⟩ := (invMod_eq_some_iff hone).mp hr
    have hrx := uint_complete_field_rx h hlt
    have hrun : exec .finv s = .next (s.complete (.field r)) := by
      rw [execFinv_eq, if_pos (by exact hA), show finv s.build.curve.p s.fieldA = some r from hr]
    refine ⟨_, hrun, ?_, ?_, ?_, fun r' _ hlt' hmul' => ?_, rfl⟩ <;> rw [hrx]
    · exact Nat.pos_of_ne_zero fun hz => by simp [hz] at hmul
    · exact hlt
    · exact hmul
    · exact Option.some.inj (hr.symm.trans ((invMod_eq_some_iff hone).mpr ⟨hlt', hmul'⟩))
  · have hA : s.fieldA = 0 := h0
    rw [execFinv_eq, hA, if_pos (valid_p_pos h), finv_zero h.prime]
    rfl

end Sys2Proof.Machine
end

