-- ==== Sys2Proof/Proofs/CommandFlow.lean ====
section
/-! PROOFS. How a command runs: its acceptance or its drop (R140, R229), the readback of its word (R33), and the step
that completes it (R141). -/

namespace Sys2Proof.Machine

variable {s t : State} {v : Word}

/-! ### The completion -/

/-- Settles O4: with no event left, or the completion next, the step is the completion step of the word in flight. -/
theorem stepRunsTheDecodedCommand : Obligations.StepRunsTheDecodedCommand :=
  fun s _ _ hr hq hd => ⟨fun hev => (step_nil hev).trans (completionStep_command hr hq hd),
    fun es hev => (step_cons hev).trans (completionStep_command (s := s.withEvents es) hr hq hd)⟩

/-- The number of a command's word names that word. -/
theorem withFetchWord_encode (s : State) (i : Instr) :
    s.withFetchWord 32 (encode i).toNat = s.loadCommand (encode i) := by
  rw [State.withFetchWord, Nat.mod_eq_of_lt (encode i).isLt, BitVec.ofNat_toNat, BitVec.setWidth_eq]

/-- Settles O5: the word loaded is in flight with its completion next, and decodes back to the command. -/
theorem loadedWordRunsNext : Obligations.LoadedWordRunsNext := by
  intro s i
  rw [withFetchWord_encode, step_loadCommand]
  exact completionStep_command rfl rfl (decode_encode i)

/-! ### The readback -/

@[simp] theorem putBig_cmd (s : State) (X : BigName) (r : BigReg) : (s.putBig X r).cmd = s.cmd := by
  cases X <;> rfl

theorem gated_cmd {s s' : State} (h : s'.cmd = s.cmd) : (s.gated s').cmd = s.cmd := by
  cases hq : s.seq with
  | idle => rwa [gated_idle hq]
  | busy u => rw [gated_busy hq]

/-- R33, R68: a write that changes the readback is one that an idle engine accepts, at the offset of CMD. -/
theorem writeOff_cmd_changed {off : Nat} (h : (s.writeOff off v).cmd ≠ s.cmd) :
    s.rst = false ∧ s.seq = .idle ∧ targetOf off = .cmd ∧ s.writeOff off v = s.accept v := by
  cases hr : s.rst with
  | true => simp [State.writeOff, hr] at h
  | false =>
    rw [writeOff_released hr] at h ⊢
    obtain ⟨hT, hw⟩ | ⟨-, hw⟩ | ⟨-, hw⟩ | ⟨-, hw⟩ | ⟨-, hw⟩ | ⟨X, i, -, -, -, hw⟩ | ⟨-, -, -, -, -, -, hw⟩ :=
      writeTarget_cases s v (targetOf off) <;> rw [hw] at h ⊢
    · obtain ⟨-, hc⟩ | ⟨hq, hc⟩ := writeCmd_cases s v <;> rw [hc] at h ⊢
      · exact absurd rfl h
      · exact ⟨rfl, hq, hT, rfl⟩
    · exact absurd rfl h
    · exact absurd rfl h
    · exact (h (gated_cmd rfl)).elim
    · exact (h (gated_cmd rfl)).elim
    · exact (h (gated_cmd (putBig_cmd ..))).elim
    · exact absurd rfl h

theorem iterate_cmd (s : State) : s.iterate.cmd = s.cmd := by
  obtain h | ⟨v, i, acc, -, -, -, -, -, h⟩ := iterate_cases s <;> rw [h]

/-- R33: no completion, successful or failed, changes the readback. -/
theorem completionStep_cmd (h : s.completionStep = .next t) : t.cmd = s.cmd := by
  obtain ⟨-, rfl⟩ | ⟨-, ⟨w, rfl⟩ | ⟨e, rfl⟩⟩ := completionStep_ends h
  · rfl
  · exact apply_cmd s w
  · rfl

/-- R33: what changes the readback is the acceptance of a CMD write, or a reset. -/
theorem handle_cmd_changed {e : Event} (h : s.handle e = .next t) (hc : t.cmd ≠ s.cmd) :
    (∃ addr off, e = .write addr 4 t.cmd ∧ windowOffset s.build addr = some off ∧ targetOf off = .cmd ∧
      s.rst = false ∧ s.seq = .idle ∧ t = s.accept t.cmd) ∨ (e = .assertReset ∧ t = s.assertReset) := by
  obtain ⟨-, off, -, -, rfl⟩ | ⟨addr, off, v, rfl, ho, rfl⟩ | ⟨-, rfl⟩ | ⟨-, h⟩ | h | ⟨-, rfl⟩ := handle_cases h
  · exact absurd rfl hc
  · obtain ⟨hr, hq, hT, hw⟩ := writeOff_cmd_changed hc
    rw [hw]
    exact .inl ⟨addr, off, rfl, ho, hT, hr, hq, rfl⟩
  · cases hr : s.rst <;> simp [hr, iterate_cmd] at hc
  · exact absurd (completionStep_cmd h) hc
  · exact .inr h
  · exact absurd rfl hc

theorem step_writeCmd {es : List Event} (hr : s.rst = false)
    (hev : s.events = .write (s.build.base + 0x004) 4 v :: es) : step s = .next ((s.withEvents es).writeCmd v) := by
  rw [step_write (by omega) hev, writeOff_cmd (s := s.withEvents es) hr]

/-- Settles O21: by the state the CMD write leaves, and by the events that can change the readback. -/
theorem commandWriteIsAcceptedOrDropped : Obligations.CommandWriteIsAcceptedOrDropped := by
  refine ⟨fun s v es hr hev => ⟨fun hq => ?_, fun u hq => ?_⟩, fun s => readOff_cmd, fun b => readOff_cmd rfl,
    fun s t h hc => ?_⟩
  · refine ⟨(s.withEvents es).accept v, ?_, readOff_cmd hr, rfl⟩
    rw [step_writeCmd hr hev, writeCmd_idle (s := s.withEvents es) hq]
  · refine ⟨{ s.withEvents es with ovr := true }, ?_, (readOff_cmd hr).trans (readOff_cmd hr).symm, rfl⟩
    have hbusy : (s.withEvents es).seq ≠ .idle := fun hidle => Seq.noConfusion (hidle.symm.trans hq)
    rw [step_writeCmd hr hev, writeCmd_ne_idle hbusy]
  · obtain ⟨-, h⟩ | ⟨e, es, hev, h⟩ := step_cases h
    · exact absurd (completionStep_cmd h) hc
    · obtain ⟨addr, off, rfl, ho, hT, hr, hq, ht⟩ | ⟨rfl, ht⟩ := handle_cmd_changed (s := s.withEvents es) h hc
      · obtain ⟨hlt, haddr⟩ := windowOffset_lt ho
        obtain rfl : addr = s.build.base + off := haddr
        have hoff : off % 4096 / 4 = 1 := covers_of_targetOf hT
        exact .inl ⟨_, _, es, hev, by omega, by omega, hr, hq, by rw [ht]; rfl, rfl⟩
      · exact .inr ⟨es, hev, by rw [ht]; rfl⟩

end Sys2Proof.Machine
end

