-- ==== Sys2Proof/Proofs/PointCommands.lean ====
section
/-! PROOFS. What PNEG, PADD and PDBL leave in R, or the error they report (R145, R150, R160); that no command reports
DENOM0 (R149, R156, R185); and that PDBL is PADD with Q = P (R157, R159). -/

namespace Sys2Proof.Machine

variable {s : State} {r : Point} {p x y : Nat}

/-! ### The operands -/

theorem ptP_identity (h : s.pinf = true) : s.ptP = .identity := if_pos h

theorem ptP_affine (h : s.pinf = false) : s.ptP = .affine (uint s.px) (uint s.py) := if_neg (by simp [h])

theorem ptQ_affine (h : s.qinf = false) : s.ptQ = .affine (uint s.qx) (uint s.qy) := if_neg (by simp [h])

theorem pointInRange_affine_false (h : p ≤ x ∨ p ≤ y) : ¬ pointInRange p (.affine x y) = true := by
  rw [pointInRange_affine]
  omega

/-- R142, R222: a finite P with a coordinate that is not reduced fails its check. -/
theorem ptP_unreduced (h : s.pinf = false ∧ (p ≤ uint s.px ∨ p ≤ uint s.py)) : ¬ pointInRange p s.ptP = true := by
  rw [ptP_affine h.1]
  exact pointInRange_affine_false h.2

theorem ptQ_unreduced (h : s.qinf = false ∧ (p ≤ uint s.qx ∨ p ≤ uint s.qy)) : ¬ pointInRange p s.ptQ = true := by
  rw [ptQ_affine h.1]
  exact pointInRange_affine_false h.2

/-! ### The result -/

theorem ptR_eq_identity_iff (t : State) : t.ptR = .identity ↔ t.rinf = true := by
  cases h : t.rinf <;> simp [State.ptR, h]

/-- R29: a reduced result is the point R holds after the command. -/
theorem ptR_complete_point (h : s.build.curve.Valid) (hr : pointInRange s.build.curve.p r = true) :
    (s.complete (.point r)).ptR = r := by
  have hp := valid_p_lt_radix h
  cases r with
  | identity => rfl
  | affine x y =>
    obtain ⟨hx, hy⟩ := pointInRange_affine.mp hr
    exact congrArg₂ Point.affine (uint_regOf (hx.trans hp)) (uint_regOf (hy.trans hp))

/-- R12, R206: an identity result leaves zero coordinates. -/
theorem complete_point_zero (h : s.build.curve.Valid) (hr : (s.complete (.point r)).rinf = true) :
    uint (s.complete (.point r)).rx = 0 ∧ uint (s.complete (.point r)).ry = 0 := by
  have hp := (valid_p_pos h).trans (valid_p_lt_radix h)
  cases r with
  | identity => exact ⟨uint_regOf hp, uint_regOf hp⟩
  | affine x y => exact absurd hr (by simp [State.complete, State.apply, State.setR])

/-- R29, R83: a point result changes R and STATUS alone, and leaves EQ. -/
theorem complete_point_frame (s : State) (r : Point) :
    s.complete (.point r) = { s with
      rx := (s.complete (.point r)).rx, ry := (s.complete (.point r)).ry, rinf := (s.complete (.point r)).rinf,
      errcode := .none, done := true, seq := .idle, smul := none } := by
  cases r <;> rfl

/-! ### PNEG -/

/-- R103, R144: the residue of a difference that is not negative. -/
theorem fneg_eq_sub_mod (h : y ≤ p) : fneg p y = (p - y) % p := by
  rw [fneg, ← Nat.cast_sub h, ← Int.natCast_mod, Int.toNat_natCast]

/-- Settles O36: by whether P is the identity, reduced, or neither. -/
theorem pnegResult : Obligations.PnegResult := by
  intro s h p
  have hp : p < s.build.curve.radix := valid_p_lt_radix h
  refine ⟨fun hinf => ?_, fun hfin hx hy => ?_,
    fun hfin hxy => (execPneg_eq s).trans (if_neg (ptP_unreduced ⟨hfin, hxy⟩))⟩
  · refine ⟨s.complete (.point .identity), ?_, rfl, (complete_point_zero h rfl).1, (complete_point_zero h rfl).2, rfl⟩
    rw [execPneg_eq, ptP_identity hinf]
    rfl
  · have hneg : fneg p (uint s.py) = (p - uint s.py) % p := fneg_eq_sub_mod hy.le
    refine ⟨s.complete (.point (.affine (uint s.px) (fneg p (uint s.py)))), ?_, rfl, uint_regOf (hx.trans hp), ?_, rfl⟩
    · rw [execPneg_eq, ptP_affine hfin, if_pos (pointInRange_affine.mpr ⟨hx, hy⟩)]
      rfl
    · rw [← hneg]
      exact uint_regOf ((fneg_lt (valid_p_pos h) _).trans hp)

/-! ### PADD -/

/-- Settles O37: `padd` answers a reduced point, which R holds and which is the sum of R146. -/
theorem paddResult : Obligations.PaddResult := by
  intro s h p
  refine ⟨fun hP hQ => ?_, fun hPQ => (execPadd_eq s).trans (if_neg fun ⟨hP, hQ⟩ => ?_)⟩
  · obtain ⟨r, hr, hred⟩ := padd_total h hP hQ
    refine ⟨s.complete (.point r), ?_, ?_⟩
    · rw [execPadd_eq, if_pos ⟨hP, hQ⟩, hr]
      rfl
    · rw [ptR_complete_point h hred]
      exact ⟨padd_isSum h hP hQ hr, hred, complete_point_zero h, complete_point_frame s r⟩
  · exact hPQ.elim (ptP_unreduced · hP) (ptQ_unreduced · hQ)

/-! ### PDBL -/

/-- R154, R155: the double is the identity exactly for the identity and for `y = 0`. -/
theorem IsDouble.eq_identity_iff {c : CurveParams} {P R : Point} (h : IsDouble c P R) :
    R = .identity ↔ P = .identity ∨ ∃ x, P = .affine x 0 := by
  cases P with
  | identity => simp [show R = .identity from h]
  | affine x y =>
    obtain ⟨rfl, rfl⟩ | ⟨hy, x3, y3, rfl, -⟩ := h
    · simp
    · simp [hy]

/-- Settles O38: `pdbl` answers a reduced point, which R holds and which is the double of R154. -/
theorem pdblResult : Obligations.PdblResult := by
  intro s h p
  refine ⟨fun hP => ?_, fun hxy => (execPdbl_eq s).trans (if_neg (ptP_unreduced hxy))⟩
  obtain ⟨r, hr, hred⟩ := pdbl_total h hP
  have hdbl := pdbl_isDouble h hP hr
  refine ⟨s.complete (.point r), ?_, ?_⟩
  · rw [execPdbl_eq, if_pos hP, hr]
    rfl
  · have hinf := ptR_eq_identity_iff (s.complete (.point r))
    rw [ptR_complete_point h hred] at hinf ⊢
    exact ⟨hdbl, hred, hinf.symm.trans hdbl.eq_identity_iff, complete_point_zero h, complete_point_frame s r⟩

/-- R159. -/
theorem pdbl_eq_padd_self (c : CurveParams) (P : Point) : pdbl c P = padd c P P := by
  cases P with
  | identity => rfl
  | affine x y => exact (if_pos ⟨rfl, rfl⟩).symm

/-- R157: PDBL comes to what PADD comes to with P copied to Q: both check P alone, and then double it. -/
theorem pdbl_finishes_as_padd (s : State) :
    ∃ r, exec .pdbl s = s.finish r ∧ exec .padd s.copyPtoQ = s.copyPtoQ.finish r := by
  have hadd : exec .padd s.copyPtoQ =
      if pointInRange s.build.curve.p s.ptP = true then s.copyPtoQ.finish ((pdbl s.build.curve s.ptP).map .point)
      else .next (s.copyPtoQ.raiseError .range) := by
    rw [pdbl_eq_padd_self]
    exact (execPadd_eq s.copyPtoQ).trans (if_congr and_self_iff rfl rfl)
  rw [hadd, execPdbl_eq]
  split
  · exact ⟨_, rfl, rfl⟩
  · exact ⟨.error .range, rfl, rfl⟩

/-- Settles O48: the two commands finish the same way, from the same R and EQ. -/
theorem doublingIsAddingToItself : Obligations.DoublingIsAddingToItself := by
  refine ⟨pdbl_eq_padd_self, fun s t u ht hu => ?_⟩
  obtain ⟨r, hdbl, hadd⟩ := pdbl_finishes_as_padd s
  exact finish_agreeOnResults (s := s) (s' := s.copyPtoQ) rfl rfl rfl rfl rfl (hdbl.symm.trans ht) (hadd.symm.trans hu)

/-! ### DENOM0 -/

/-- R185. -/
theorem psmul_total {c : CurveParams} (h : c.Valid) {P : Point} (hP : pointInRange c.p P = true) (k : Nat) :
    ∃ r, psmul c P k = .ok r ∧ pointInRange c.p r = true :=
  psmulFrom_total h hP k c.width rfl

/-- Settles O43: every command ends well in a state of the invariant, and the point functions are total. -/
theorem zeroDenominatorIsUnreachable : Obligations.ZeroDenominatorIsUnreachable := by
  refine ⟨fun s t i hi ht => ?_, fun c P Q k h hP hQ => ⟨padd_total h hP hQ, pdbl_total h hP, psmul_total h hP k⟩⟩
  obtain ⟨r, hr, hends⟩ := exec_endsWell hi i
  obtain ⟨w, rfl, rfl⟩ | ⟨e, rfl, rfl⟩ := finish_cases (hr.symm.trans ht)
  · exact nofun
  · exact hends

end Sys2Proof.Machine
end

