-- ==== Sys2Proof/Proofs/AdditionLaws.lean ====
section
/-! PROOFS. The laws of addition for reduced points, on or off the curve (R151). -/

namespace Sys2Proof.Machine

variable {c : CurveParams} {p x1 y1 x2 y2 x3 y3 x3' y3' : Nat}

/-! ### The chord formulas in `ZMod p` -/

theorem natCast_ne {a b : Nat} (ha : a < p) (hb : b < p) (h : a ≠ b) : (a : ZMod p) ≠ b :=
  mt (eq_of_cast_eq ha hb) h

/-- R146 step 4: with a prime modulus the slope is a quotient, and it gives both coordinates. -/
theorem ChordSum.cast_eq [Fact p.Prime] (h : ChordSum p x1 y1 x2 y2 x3 y3) (hx : (x1 : ZMod p) ≠ x2) :
    (x3 : ZMod p) = ((y1 - y2) / (x1 - x2)) ^ 2 - x1 - x2 ∧
      (y3 : ZMod p) = (y1 - y2) / (x1 - x2) * (x1 - x3) - y1 := by
  obtain ⟨-, -, lam, hlam, hx3, hy3⟩ := h
  have hlam := cast_of_modEq hlam
  have hx3 := cast_of_modEq hx3
  have hy3 := cast_of_modEq hy3
  push_cast at hlam hx3 hy3
  have hslope : ((y1 : ZMod p) - y2) / (x1 - x2) = lam := by
    rw [div_eq_iff (sub_ne_zero.mpr hx)]
    linear_combination hlam
  rw [hslope]
  exact ⟨hx3, hy3⟩

/-- R151: the chord through two points is the chord through them in the other order. -/
theorem ChordSum.eq_swap [Fact p.Prime] (h : ChordSum p x1 y1 x2 y2 x3 y3) (h' : ChordSum p x2 y2 x1 y1 x3' y3')
    (hx : (x1 : ZMod p) ≠ x2) : x3 = x3' ∧ y3 = y3' := by
  obtain ⟨hx3, hy3⟩ := h.cast_eq hx
  obtain ⟨hx3', hy3'⟩ := h'.cast_eq hx.symm
  obtain ⟨hxlt, hylt, -⟩ := h
  obtain ⟨hxlt', hylt', -⟩ := h'
  have hslope : ((y2 : ZMod p) - y1) / (x2 - x1) = (y1 - y2) / (x1 - x2) := by
    rw [← neg_sub, ← neg_sub (x1 : ZMod p), neg_div_neg_eq]
  have hline : ((y1 : ZMod p) - y2) / (x1 - x2) * (x1 - x2) = y1 - y2 := div_mul_cancel₀ _ (sub_ne_zero.mpr hx)
  rw [hslope] at hx3' hy3'
  have hxx : x3 = x3' := eq_of_cast_eq hxlt hxlt' (by rw [hx3, hx3']; ring)
  refine ⟨hxx, eq_of_cast_eq hylt hylt' ?_⟩
  rw [hy3, hy3', hxx]
  linear_combination hline

/-! ### The laws -/

theorem padd_identity_left (c : CurveParams) (Q : Point) : padd c .identity Q = .ok Q := rfl

theorem padd_identity_right (c : CurveParams) (P : Point) : padd c P .identity = .ok P := by
  cases P <;> rfl

/-- R144: negating a reduced integer twice gives it back. -/
theorem fneg_fneg {y : Nat} (hy : y < p) : fneg p (fneg p y) = y := by
  have hp : 0 < p := by omega
  refine eq_of_cast_eq (fneg_lt hp _) hy ?_
  rw [fneg_cast _ _ hp, fneg_cast _ _ hp, neg_neg]

theorem pneg_pneg {P : Point} (hP : pointInRange p P = true) : pneg p (pneg p P) = P := by
  cases P with
  | identity => rfl
  | affine x y => exact congrArg (Point.affine x) (fneg_fneg (pointInRange_affine.mp hP).2)

/-- R155: for an odd modulus only 0 is its own negative. -/
theorem eq_zero_of_eq_fneg {y : Nat} (hp : p % 2 = 1) (hy : y < p) (h : y = fneg p y) : y = 0 := by
  by_contra h0
  rw [fneg_eq_sub_mod hy.le, Nat.mod_eq_of_lt (by omega)] at h
  omega

/-- R147, R155: a point and its negative have one `x`, and where they are one point its `y` is 0. -/
theorem padd_pneg (h : c.Valid) {P : Point} (hP : pointInRange c.p P = true) :
    padd c P (pneg c.p P) = .ok .identity := by
  cases P with
  | identity => rfl
  | affine x y =>
    by_cases hy : y = fneg c.p y
    · have h0 := eq_zero_of_eq_fneg (valid_p_odd h) (pointInRange_affine.mp hP).2 hy
      rw [pneg, ← hy, ← pdbl_eq_padd_self, h0]
      rfl
    · simp [pneg, padd, hy]

theorem padd_comm (h : c.Valid) {P Q : Point} (hP : pointInRange c.p P = true) (hQ : pointInRange c.p Q = true) :
    padd c P Q = padd c Q P := by
  have := Fact.mk h.prime
  match P, Q with
  | .identity, _ => rw [padd_identity_left, padd_identity_right]
  | _, .identity => rw [padd_identity_left, padd_identity_right]
  | .affine x1 y1, .affine x2 y2 =>
    obtain ⟨hx1, -⟩ := pointInRange_affine.mp hP
    obtain ⟨hx2, -⟩ := pointInRange_affine.mp hQ
    by_cases hx : x1 = x2
    · subst hx
      by_cases hy : y1 = y2
      · rw [hy]
      · simp [padd, hy, Ne.symm hy]
    · obtain ⟨i, hi, hadd⟩ := padd_chord h (y1 := y1) (y2 := y2) hx1 hx2 hx
      obtain ⟨i', hi', hadd'⟩ := padd_chord h (y1 := y2) (y2 := y1) hx2 hx1 (Ne.symm hx)
      obtain ⟨x3, y3, hR, hsum⟩ := chordPoint_spec h (y1 := y1) (y2 := y2) hi
      obtain ⟨x3', y3', hR', hsum'⟩ := chordPoint_spec h (y1 := y2) (y2 := y1) hi'
      obtain ⟨rfl, rfl⟩ := hsum.eq_swap hsum' (natCast_ne hx1 hx2 hx)
      rw [hadd, hadd', hR, hR']

/-- Settles O49: the five laws, one lemma each. -/
theorem additionLawsForReducedPoints : Obligations.AdditionLawsForReducedPoints :=
  fun c P _ h hP hQ => ⟨padd_identity_right c P, padd_identity_left c P, padd_pneg h hP, padd_comm h hP hQ,
    pneg_pneg hP⟩

end Sys2Proof.Machine
end

