-- ==== Sys2Proof/Proofs/EllipticCurve.lean ====
section
/-! PROOFS. The points of a non-singular curve (R17, R152, R184) are those of Mathlib's Weierstrass curve over `ZMod p`,
and `padd` is its addition; so addition on the curve is associative (R151). -/

namespace Sys2Proof.Machine

open WeierstrassCurve

variable {c : CurveParams} {b' : Nat}

/-- The curve `y^2 = x^3 + a*x + b'` over `ZMod p`. -/
def weierstrass (c : CurveParams) (b' : Nat) : Affine (ZMod c.p) where
  a₁ := 0
  a₂ := 0
  a₃ := 0
  a₄ := c.a
  a₆ := b'

theorem weierstrass_equation_iff (x y : ZMod c.p) :
    (weierstrass c b').Equation x y ↔ y ^ 2 = x ^ 3 + c.a * x + b' := by
  rw [Affine.equation_iff]
  simp [weierstrass]

theorem weierstrass_negY (x y : ZMod c.p) : (weierstrass c b').negY x y = -y := by simp [Affine.negY, weierstrass]

/-- R184: a curve that the model calls non-singular has a discriminant that is not 0. -/
theorem weierstrass_disc_ne_zero (h : c.Valid) (hns : nonSingular c b') : (weierstrass c b').Δ ≠ 0 := by
  have := Fact.mk h.prime
  have hp := valid_p_gt_three h
  have h2 : ((2 : Nat) : ZMod c.p) ≠ 0 := natCast_ne_zero (by omega) (by omega)
  have hdisc : ((4 * c.a ^ 3 + 27 * b' ^ 2 : Nat) : ZMod c.p) ≠ 0 := by
    rwa [Ne, ZMod.natCast_eq_zero_iff, Nat.dvd_iff_mod_eq_zero]
  have hΔ : (weierstrass c b').Δ = -((2 : Nat) : ZMod c.p) ^ 4 * ((4 * c.a ^ 3 + 27 * b' ^ 2 : Nat) : ZMod c.p) := by
    simp only [WeierstrassCurve.Δ, b₂, b₄, b₆, b₈, weierstrass]
    push_cast
    ring
  rw [hΔ]
  exact mul_ne_zero (neg_ne_zero.mpr (pow_ne_zero 4 h2)) hdisc

/-! ### The model's point of a point of the curve -/

/-- The model's point value of a point of the curve: its coordinates as reduced integers. -/
def pointOf : (weierstrass c b').Point → Point
  | .zero       => .identity
  | .some x y _ => .affine x.val y.val

theorem pointOf_zero : pointOf (0 : (weierstrass c b').Point) = .identity := rfl

theorem pointOf_some {x y : ZMod c.p} (h : (weierstrass c b').Nonsingular x y) :
    pointOf (.some x y h) = .affine x.val y.val := rfl

theorem pointOf_inRange (h : c.Valid) (A : (weierstrass c b').Point) : pointInRange c.p (pointOf A) = true := by
  have := Fact.mk h.prime
  match A with
  | .zero => rfl
  | .some x y _ => exact pointInRange_affine.mpr ⟨ZMod.val_lt x, ZMod.val_lt y⟩

/-- R17: the curve equation on integers is the one in `ZMod p`. -/
theorem curve_equation_cast (x y : Nat) :
    y ^ 2 % c.p = (x ^ 3 + c.a * x + b') % c.p ↔ (weierstrass c b').Equation (x : ZMod c.p) (y : ZMod c.p) := by
  rw [weierstrass_equation_iff, ← ZMod.natCast_eq_natCast_iff']
  push_cast
  rfl

theorem onCurve_pointOf (h : c.Valid) (A : (weierstrass c b').Point) : onCurve c b' (pointOf A) := by
  have := Fact.mk h.prime
  match A with
  | .zero => trivial
  | .some x y hxy =>
    refine ⟨ZMod.val_lt x, ZMod.val_lt y, (curve_equation_cast _ _).mpr ?_⟩
    simpa using hxy.left

/-- R184: every point of a non-singular curve is a point of Mathlib's. -/
theorem exists_pointOf (h : c.Valid) (hns : nonSingular c b') {P : Point} (hP : onCurve c b' P) :
    ∃ A : (weierstrass c b').Point, pointOf A = P := by
  cases P with
  | identity => exact ⟨0, rfl⟩
  | affine x y =>
    obtain ⟨hx, hy, hxy⟩ := hP
    have heq := (curve_equation_cast x y).mp hxy
    refine ⟨.some _ _ ((Affine.equation_iff_nonsingular_of_Δ_ne_zero (weierstrass_disc_ne_zero h hns)).mp heq), ?_⟩
    rw [pointOf_some, ZMod.val_natCast_of_lt hx, ZMod.val_natCast_of_lt hy]

/-! ### The model's addition is that of the curve -/

section Addition
variable [Fact c.p.Prime] {x1 y1 x2 y2 : ZMod c.p} {x3 y3 : Nat} {h1 : (weierstrass c b').Nonsingular x1 y1}
  {h2 : (weierstrass c b').Nonsingular x2 y2}

/-- Reduced coordinates that the line through two points gives are those of their sum. -/
theorem affine_eq_pointOf_add (hxy : ¬ (x1 = x2 ∧ y1 = (weierstrass c b').negY x2 y2)) (hx3 : x3 < c.p) (hy3 : y3 < c.p)
    (hx : (x3 : ZMod c.p) = (weierstrass c b').slope x1 x2 y1 y2 ^ 2 - x1 - x2)
    (hy : (y3 : ZMod c.p) = (weierstrass c b').slope x1 x2 y1 y2 * (x1 - x3) - y1) :
    .affine x3 y3 = pointOf (Affine.Point.some x1 y1 h1 + Affine.Point.some x2 y2 h2) := by
  have haddX : (weierstrass c b').addX x1 x2 ((weierstrass c b').slope x1 x2 y1 y2) = x3 := by
    rw [hx, Affine.addX]
    simp [weierstrass]
  have haddY : (weierstrass c b').addY x1 x2 y1 ((weierstrass c b').slope x1 x2 y1 y2) = y3 := by
    rw [hy, Affine.addY, Affine.negAddY, haddX, weierstrass_negY]
    ring
  rw [Affine.Point.add_some hxy, pointOf_some, haddX, haddY, ZMod.val_natCast_of_lt hx3, ZMod.val_natCast_of_lt hy3]

/-- R146 step 4: the chord sum of points with different `x` is their sum on the curve. -/
theorem chordSum_eq_pointOf_add (hx : x1 ≠ x2) (h : ChordSum c.p x1.val y1.val x2.val y2.val x3 y3) :
    .affine x3 y3 = pointOf (Affine.Point.some x1 y1 h1 + Affine.Point.some x2 y2 h2) := by
  obtain ⟨hx3, hy3⟩ := h.cast_eq (by simpa using hx)
  obtain ⟨hxlt, hylt, -⟩ := h
  simp only [ZMod.natCast_zmod_val] at hx3 hy3
  refine affine_eq_pointOf_add (fun hxy => hx hxy.1) hxlt hylt ?_ ?_ <;> rw [Affine.slope_of_X_ne hx]
  · exact hx3
  · exact hy3

/-- R154: the tangent double of a point with `y ≠ -y` is its double on the curve. -/
theorem tangentDouble_eq_pointOf_add (hy : y1 ≠ -y1) (h : TangentDouble c.p c.a x1.val y1.val x3 y3) :
    .affine x3 y3 = pointOf (Affine.Point.some x1 y1 h1 + Affine.Point.some x1 y1 h1) := by
  obtain ⟨hxlt, hylt, lam, hlam, hx3, hy3⟩ := h
  have hlam := cast_of_modEq hlam
  have hx3 := cast_of_modEq hx3
  have hy3 := cast_of_modEq hy3
  push_cast [ZMod.natCast_zmod_val] at hlam hx3 hy3
  have hneg : y1 ≠ (weierstrass c b').negY x1 y1 := by rwa [weierstrass_negY]
  have hslope : (weierstrass c b').slope x1 x1 y1 y1 = lam := by
    rw [Affine.slope_of_Y_ne rfl hneg, weierstrass_negY, div_eq_iff (sub_ne_zero.mpr hy)]
    simp only [weierstrass]
    linear_combination -hlam
  refine affine_eq_pointOf_add (fun hxy => hneg hxy.2) hxlt hylt ?_ ?_ <;> rw [hslope]
  · rw [hx3]; ring
  · exact hy3

end Addition

/-- R146: the sum of two points by the four ordered cases is their sum on the curve. -/
theorem IsSum.eq_pointOf_add [Fact c.p.Prime] (h : c.Valid) {A B : (weierstrass c b').Point} {R : Point}
    (hs : IsSum c (pointOf A) (pointOf B) R) : R = pointOf (A + B) := by
  match A, B with
  | .zero, B => exact hs.trans (congrArg pointOf (zero_add B).symm)
  | .some x y hxy, .zero => exact hs.trans (congrArg pointOf (add_zero (Affine.Point.some x y hxy)).symm)
  | .some x1 y1 h1, .some x2 y2 h2 =>
    obtain ⟨hx, hy, hdbl⟩ | ⟨hx, hy, rfl⟩ | ⟨hx, x3, y3, rfl, hsum⟩ := hs
    · obtain rfl := ZMod.val_injective _ hx
      obtain rfl := ZMod.val_injective _ hy
      obtain ⟨h0, rfl⟩ | ⟨h0, x3, y3, rfl, hsum⟩ := hdbl
      · obtain rfl := (ZMod.val_eq_zero y1).mp h0
        rw [Affine.Point.add_self_of_Y_eq (by rw [weierstrass_negY, neg_zero]), pointOf_zero]
      · have hy0 : y1 ≠ 0 := mt (ZMod.val_eq_zero y1).mpr h0
        exact tangentDouble_eq_pointOf_add (ZMod.ne_neg_self (Nat.odd_iff.mpr (valid_p_odd h)) hy0) hsum
    · obtain rfl := ZMod.val_injective _ hx
      have hneg := (Affine.Y_eq_of_X_eq h1.left h2.left rfl).resolve_left (mt (congrArg ZMod.val) hy)
      rw [Affine.Point.add_of_Y_eq rfl hneg, pointOf_zero]
    · exact chordSum_eq_pointOf_add (mt (congrArg ZMod.val) hx) hsum

/-- R151: `padd` on the points of the curve is the addition of the curve. -/
theorem padd_pointOf [Fact c.p.Prime] (h : c.Valid) (A B : (weierstrass c b').Point) :
    padd c (pointOf A) (pointOf B) = .ok (pointOf (A + B)) := by
  have hA := pointOf_inRange h A
  have hB := pointOf_inRange h B
  obtain ⟨R, hR, -⟩ := padd_total h hA hB
  rw [hR, (padd_isSum h hA hB hR).eq_pointOf_add h]

/-- Settles O50: on the curve `padd` is the addition of a group. -/
theorem additionIsAssociativeOnTheCurve : Obligations.AdditionIsAssociativeOnTheCurve := by
  intro c b' P Q S h hns hP hQ hS
  have := Fact.mk h.prime
  obtain ⟨A, rfl⟩ := exists_pointOf h hns hP
  obtain ⟨B, rfl⟩ := exists_pointOf h hns hQ
  obtain ⟨C, rfl⟩ := exists_pointOf h hns hS
  refine ⟨_, _, _, padd_pointOf h A B, padd_pointOf h B C, padd_pointOf h (A + B) C, ?_, onCurve_pointOf h _⟩
  rw [padd_pointOf h, add_assoc]

end Sys2Proof.Machine
end

