-- ==== Sys2Proof/Proofs/ScalarMul.lean ====
section
/-! PROOFS. Scalar multiplication: what PSMUL leaves in R or the error it reports (R180, R181), the corner cases of the loop
(R183), and that on a non-singular curve the loop is repeated addition (R184, R187), which gives the rows for G. -/

namespace Sys2Proof.Machine

variable {c : CurveParams} {b' : Nat} {P acc acc2 : Point} {k i : Nat}

/-! ### PSMUL -/

/-- R180: what `psmul` answers is the accumulator of the loop after all `W` bits. -/
theorem psmul_loop {R : Point} (h : c.Valid) (hP : pointInRange c.p P = true) (hR : psmul c P k = .ok R) :
    ScalarLoop c P k c.width R := by
  have hstart : ScalarLoop c P k (c.width - c.width) .identity := by
    rw [Nat.sub_self]
    rfl
  exact psmulFrom_loop h hP c.width le_rfl rfl hstart hR

/-- Settles O39: `psmul` answers a reduced point, which R holds and which is the accumulator of R180's loop. -/
theorem psmulResult : Obligations.PsmulResult := by
  intro s hi p
  have h := hi.build.curve
  refine ⟨fun hP => ?_, fun hxy => (execPsmul_eq s).trans (if_neg (ptP_unreduced hxy))⟩
  obtain ⟨r, hr, hred⟩ := psmul_total h hP (uint s.k)
  refine ⟨s.complete (.point r), ?_, ?_⟩
  · rw [execPsmul_of_inv hi, if_pos hP, hr]
    rfl
  · rw [ptR_complete_point h hred]
    exact ⟨psmul_loop h hP hr, hr, hred, complete_point_zero h, complete_point_frame s r⟩

/-! ### One iteration, by the bit of the scalar -/

theorem psmulStep_of_bit_zero (hd : pdbl c acc = .ok acc2) (hk : k.testBit i = false) :
    psmulStep c P k i acc = .ok acc2 := by
  simp [psmulStep, hd, hk]

theorem psmulStep_of_bit_one (hd : pdbl c acc = .ok acc2) (hk : k.testBit i = true) :
    psmulStep c P k i acc = padd c acc2 P := by
  simp [psmulStep, hd, hk]

/-- The loop ends with bit 0, and so with the iteration for it. -/
theorem psmulFrom_one (c : CurveParams) (P : Point) (k : Nat) (acc : Point) :
    psmulFrom c P k 1 acc = psmulStep c P k 0 acc := by
  simp only [psmulFrom]
  cases psmulStep c P k 0 acc <;> rfl

/-! ### Corner cases -/

theorem width_pos (h : c.Valid) : 0 < c.width := by
  by_contra hw
  have hp := valid_p_lt_radix h
  have hp3 := valid_p_gt_three h
  rw [CurveParams.radix, Nat.eq_zero_of_not_pos hw] at hp
  omega

/-- R6: the width is a positive number of whole words. -/
theorem two_le_width (h : c.Valid) : 2 ≤ c.width := by
  have hw := width_pos h
  unfold CurveParams.width at hw ⊢
  omega

/-- The zero bits above a scalar below `2^m` leave the accumulator at the identity. -/
theorem psmulFrom_leading_zeros {m : Nat} (hk : k < 2 ^ m) :
    ∀ n, psmulFrom c P k (m + n) .identity = psmulFrom c P k m .identity
  | 0     => rfl
  | n + 1 => by
    have hbit : k.testBit (m + n) = false :=
      Nat.testBit_lt_two_pow (hk.trans_le (Nat.pow_le_pow_right two_pos (Nat.le_add_right m n)))
    rw [← Nat.add_assoc, psmulFrom_step (psmulStep_of_bit_zero rfl hbit), psmulFrom_leading_zeros hk n]

/-- So `psmul` starts at any bit above the highest one of the scalar. -/
theorem psmul_eq_psmulFrom {m : Nat} (hm : m ≤ c.width) (hk : k < 2 ^ m) :
    psmul c P k = psmulFrom c P k m .identity := by
  rw [psmul, ← Nat.add_sub_of_le hm, psmulFrom_leading_zeros hk]

theorem psmul_zero (c : CurveParams) (P : Point) : psmul c P 0 = .ok .identity :=
  psmul_eq_psmulFrom (Nat.zero_le _) one_pos

theorem psmul_one (h : c.Valid) : psmul c P 1 = .ok P := by
  rw [psmul_eq_psmulFrom (m := 1) (width_pos h) (by decide), psmulFrom_one,
    psmulStep_of_bit_one (acc2 := .identity) rfl rfl, padd_identity_left]

/-- A scalar of two bits, the higher one set: after it the accumulator is P, and bit 0 is left. -/
theorem psmul_of_two_bits (h : c.Valid) (hk : k < 4) (hbit : k.testBit 1 = true) :
    psmul c P k = psmulStep c P k 0 P := by
  rw [psmul_eq_psmulFrom (m := 2) (two_le_width h) hk, psmulFrom_step (acc' := P), psmulFrom_one]
  rw [psmulStep_of_bit_one (acc2 := .identity) rfl hbit, padd_identity_left]

theorem psmul_two (h : c.Valid) (hP : pointInRange c.p P = true) : psmul c P 2 = pdbl c P := by
  obtain ⟨D, hD, -⟩ := pdbl_total h hP
  rw [psmul_of_two_bits h (by decide) rfl, psmulStep_of_bit_zero hD rfl, hD]

theorem psmul_three (h : c.Valid) {D : Point} (hD : pdbl c P = .ok D) : psmul c P 3 = padd c D P := by
  rw [psmul_of_two_bits h (by decide) rfl, psmulStep_of_bit_one hD rfl]

/-- R155, R183: a point that doubles to the identity. From an accumulator that doubles to the identity as well, the last
bit of the scalar alone decides. -/
theorem psmulFrom_of_pdbl_identity (hP : pdbl c P = .ok .identity) :
    ∀ (n : Nat) {acc : Point}, pdbl c acc = .ok .identity →
      psmulFrom c P k (n + 1) acc = .ok (if k.testBit 0 then P else .identity)
  | n, acc, hacc => by
    have hs : psmulStep c P k n acc = .ok (if k.testBit n then P else .identity) := by
      cases hk : k.testBit n
      · exact psmulStep_of_bit_zero hacc hk
      · exact psmulStep_of_bit_one hacc hk
    rw [psmulFrom_step hs]
    cases n with
    | zero => rfl
    | succ n =>
      refine psmulFrom_of_pdbl_identity hP n ?_
      split
      · exact hP
      · rfl

theorem psmul_of_pdbl_identity (h : c.Valid) (hP : pdbl c P = .ok .identity) (k : Nat) :
    psmul c P k = .ok (if k % 2 = 1 then P else .identity) := by
  obtain ⟨n, hn⟩ := Nat.exists_eq_succ_of_ne_zero (width_pos h).ne'
  rw [psmul, hn, psmulFrom_of_pdbl_identity hP n rfl]
  simp only [Nat.testBit_zero, decide_eq_true_eq]

/-- Settles O54: one lemma for each row. -/
theorem scalarMultiplicationCornerCases : Obligations.ScalarMultiplicationCornerCases := by
  intro c P k h hP _
  refine ⟨psmul_zero c P, ?_, psmul_one h, psmul_two h hP, fun D => psmul_three h, ?_⟩
  · rw [psmul_of_pdbl_identity h rfl, ite_self]
  · rintro x rfl
    have hk := psmul_of_pdbl_identity h (P := .affine x 0) rfl k
    exact ⟨fun heven => by rw [hk, if_neg (by omega)], fun hodd => by rw [hk, if_pos hodd]⟩

/-! ### Repeated addition -/

theorem pointOf_eq_identity_iff (A : (weierstrass c b').Point) : pointOf A = .identity ↔ A = 0 := by
  match A with
  | .zero => exact iff_of_true rfl rfl
  | .some x y hxy => exact iff_of_false nofun nofun

section Multiples
variable [Fact c.p.Prime]

theorem pdbl_pointOf (h : c.Valid) (A : (weierstrass c b').Point) : pdbl c (pointOf A) = .ok (pointOf (2 • A)) := by
  rw [pdbl_eq_padd_self, padd_pointOf h, two_nsmul]

/-- R184: with `n` bits to go, the loop shifts the accumulator by `n` bits and adds the low `n` bits' multiple of A. -/
theorem psmulFrom_pointOf (h : c.Valid) (A : (weierstrass c b').Point) (k : Nat) :
    ∀ (n : Nat) (B : (weierstrass c b').Point),
      psmulFrom c (pointOf A) k n (pointOf B) = .ok (pointOf (2 ^ n • B + (k % 2 ^ n) • A))
  | 0, B => by
    rw [psmulFrom, pow_zero, Nat.mod_one, one_nsmul, zero_nsmul, add_zero]
  | n + 1, B => by
    have hs : psmulStep c (pointOf A) k n (pointOf B) = .ok (pointOf (2 • B + (k.testBit n).toNat • A)) := by
      cases hk : k.testBit n
      · rw [psmulStep_of_bit_zero (pdbl_pointOf h B) hk, Bool.toNat_false, zero_nsmul, add_zero]
      · rw [psmulStep_of_bit_one (pdbl_pointOf h B) hk, padd_pointOf h, Bool.toNat_true, one_nsmul]
    rw [psmulFrom_step hs, psmulFrom_pointOf h A k n, Nat.mod_pow_succ, ← Nat.toNat_testBit, pow_succ]
    congr 2
    module

theorem psmul_pointOf (h : c.Valid) (A : (weierstrass c b').Point) (hk : k < 2 ^ c.width) :
    psmul c (pointOf A) k = .ok (pointOf (k • A)) := by
  rw [psmul, ← pointOf_zero (b' := b'), psmulFrom_pointOf h, nsmul_zero, zero_add, Nat.mod_eq_of_lt hk]

theorem repeatedAdd_pointOf (h : c.Valid) (A : (weierstrass c b').Point) :
    ∀ k, repeatedAdd c (pointOf A) k = .ok (pointOf (k • A))
  | 0     => by rw [zero_nsmul]; rfl
  | k + 1 => by
    simp only [repeatedAdd, repeatedAdd_pointOf h A k]
    rw [padd_pointOf h, succ_nsmul]

theorem pneg_pointOf (h : c.Valid) (A : (weierstrass c b').Point) : pneg c.p (pointOf A) = pointOf (-A) := by
  match A with
  | .zero => rfl
  | .some x y hxy =>
    rw [WeierstrassCurve.Affine.Point.neg_some, pointOf_some, pointOf_some, pneg, weierstrass_negY]
    congr 1
    refine eq_of_cast_eq (fneg_lt (valid_p_pos h) _) (ZMod.val_lt _) ?_
    rw [fneg_cast _ _ (valid_p_pos h), ZMod.natCast_zmod_val, ZMod.natCast_zmod_val]

end Multiples

/-- Settles O55: both sides are the multiple `k • P` in the group of the curve. -/
theorem scalarMultiplicationIsRepeatedAddition : Obligations.ScalarMultiplicationIsRepeatedAddition := by
  intro c b' P k h hns hP hk
  have := Fact.mk h.prime
  obtain ⟨A, rfl⟩ := exists_pointOf h hns hP
  rw [psmul_pointOf h A hk, repeatedAdd_pointOf h A k]

/-! ### Multiples of the generators -/

theorem catalog_order_bounds (e : CatalogEntry) : 0 < e.params.n ∧ e.params.n + 1 < 2 ^ e.params.width := by
  cases e <;> decide +kernel

/-- Settles O57: `psmul` gives multiples in the group of the curve, where `n • G = 0`. -/
theorem generatorOrderOnTheCatalogCurves : Obligations.GeneratorOrderOnTheCatalogCurves := by
  intro e c G
  have h : c.Valid := catalog_valid e
  have := Fact.mk h.prime
  obtain ⟨hpos, hlt⟩ : 0 < c.n ∧ c.n + 1 < 2 ^ c.width := catalog_order_bounds e
  obtain ⟨A, hA⟩ : ∃ A : (weierstrass c c.b).Point, pointOf A = G :=
    exists_pointOf h (catalog_nonSingular e) (catalog_generator_onCurve e)
  have hmul : ∀ k < 2 ^ c.width, psmul c G k = .ok (pointOf (k • A)) := fun k hk => hA ▸ psmul_pointOf h A hk
  have hn : psmul c G c.n = .ok .identity := catalog_generator_order e
  have horder : c.n • A = 0 := by
    rw [hmul c.n (by omega), Except.ok.injEq] at hn
    exact (pointOf_eq_identity_iff _).mp hn
  refine ⟨?_, hn, ?_, ?_⟩
  · have hpred : (c.n - 1) • A = -A := by
      rw [eq_neg_iff_add_eq_zero, add_sub_one_nsmul hpos.ne', horder]
    rw [hmul _ (by omega), hpred, ← pneg_pointOf h, hA]
  · rw [hmul _ hlt, succ_nsmul, horder, zero_add, hA]
  · have hle := Nat.mod_le (2 ^ c.width - 1) c.n
    rw [hmul _ (by omega), hmul _ (by omega), ← nsmul_eq_mod_nsmul _ horder]

end Sys2Proof.Machine
end

