-- ==== Sys2Proof/Proofs/Equality.lean ====
section
/-! PROOFS. `peq` is equality of point values (R200, R207), and PEQ records it in STATUS.EQ (R201). -/

namespace Sys2Proof.Machine

variable {s : State}

/-- R205, R207: the identity equals no finite point, whatever the coordinates. -/
theorem peq_iff_eq (P Q : Point) : peq P Q = true ↔ P = Q := by
  cases P with
  | identity =>
    cases Q with
    | identity => exact iff_of_true rfl rfl
    | affine x2 y2 => exact iff_of_false nofun nofun
  | affine x1 y1 =>
    cases Q with
    | identity => exact iff_of_false nofun nofun
    | affine x2 y2 => simp [peq]

/-- Settles O51: addition is commutative, so the two sums are one point value. -/
theorem equalityIsThatOfPointValues : Obligations.EqualityIsThatOfPointValues := by
  refine ⟨peq_iff_eq, fun c P Q R R' h hP hQ hR hR' => (peq_iff_eq R R').mpr ?_⟩
  rw [padd_comm h hP hQ, hR'] at hR
  exact (Except.ok.inj hR).symm

theorem ptQ_identity (h : s.qinf = true) : s.ptQ = .identity := if_pos h

/-- R12, R24, R25: the coordinates of an identity operand do not matter. -/
theorem ptP_eq_ptQ_iff (s : State) : s.ptP = s.ptQ ↔ (s.pinf = true ∧ s.qinf = true) ∨
    (s.pinf = false ∧ s.qinf = false ∧ uint s.px = uint s.qx ∧ uint s.py = uint s.qy) := by
  cases hP : s.pinf <;> cases hQ : s.qinf
  · simp [ptP_affine hP, ptQ_affine hQ]
  · simp [ptP_affine hP, ptQ_identity hQ]
  · simp [ptP_identity hP, ptQ_affine hQ]
  · simp [ptP_identity hP, ptQ_identity hQ]

/-- Settles O40: PEQ commits `peq` of the two operands, which compares them as point values. -/
theorem peqResult : Obligations.PeqResult := by
  intro s p
  refine ⟨fun hP hQ => ?_, fun hPQ => (execPeq_eq s).trans (if_neg fun ⟨hP, hQ⟩ => ?_)⟩
  · have heq : (s.complete (.equal (peq s.ptP s.ptQ))).eq = true ↔ s.ptP = s.ptQ := peq_iff_eq s.ptP s.ptQ
    exact ⟨_, (execPeq_eq s).trans (if_pos ⟨hP, hQ⟩), heq.trans (ptP_eq_ptQ_iff s), rfl⟩
  · exact hPQ.elim (ptP_unreduced · hP) (ptQ_unreduced · hQ)

end Sys2Proof.Machine
end

