-- ==== Sys2Proof/Proofs/BusyWrites.lean ====
section
/-! PROOFS. Host writes while a command is in flight: which are dropped (R229, R230), and what clears the flags that record
a dropped write. -/

namespace Sys2Proof.Machine

variable {s t : State} {v : Word}

/-! ### The flags of a dropped write -/

/-- From `s` to `t` no flag that records a dropped write was cleared. -/
structure DropFlagsKept (s t : State) : Prop where
  ovr  : s.ovr = true → t.ovr = true
  wign : s.wign = true → t.wign = true

theorem DropFlagsKept.of_eq (ho : t.ovr = s.ovr) (hw : t.wign = s.wign) : DropFlagsKept s t := ⟨ho.trans, hw.trans⟩

theorem putBig_dropFlagsKept (s : State) (X : BigName) (r : BigReg) : DropFlagsKept s (s.putBig X r) := by
  cases X <;> exact .of_eq rfl rfl

theorem gated_dropFlagsKept (h : DropFlagsKept s t) : DropFlagsKept s (s.gated t) := by
  cases hq : s.seq with
  | idle => rwa [gated_idle hq]
  | busy u => rw [gated_busy hq]; exact ⟨id, fun _ => rfl⟩

theorem writeCmd_dropFlagsKept (s : State) (v : Word) : DropFlagsKept s (s.writeCmd v) := by
  obtain ⟨-, h⟩ | ⟨-, h⟩ := writeCmd_cases s v <;> rw [h]
  · exact ⟨fun _ => rfl, id⟩
  · exact .of_eq rfl rfl

/-- R68: of the writes, only one of STATUS can clear a flag of a dropped write. -/
theorem writeOff_dropFlags (s : State) (off : Nat) (v : Word) :
    DropFlagsKept s (s.writeOff off v) ∨ (targetOf off = .status ∧ s.writeOff off v = s.writeStatus v) := by
  cases hr : s.rst with
  | true =>
    rw [State.writeOff, if_pos hr]
    exact .inl (.of_eq rfl rfl)
  | false =>
    rw [writeOff_released hr]
    obtain ⟨-, h⟩ | ⟨hT, h⟩ | ⟨-, h⟩ | ⟨-, h⟩ | ⟨-, h⟩ | ⟨X, i, -, -, -, h⟩ | ⟨-, -, -, -, -, -, h⟩ :=
      writeTarget_cases s v (targetOf off) <;> rw [h]
    · exact .inl (writeCmd_dropFlagsKept s v)
    · exact .inr ⟨hT, rfl⟩
    · exact .inl (.of_eq rfl rfl)
    · exact .inl (gated_dropFlagsKept (.of_eq rfl rfl))
    · exact .inl (gated_dropFlagsKept (.of_eq rfl rfl))
    · exact .inl (gated_dropFlagsKept (putBig_dropFlagsKept s X _))
    · exact .inl (.of_eq rfl rfl)

theorem iterate_dropFlagsKept (s : State) : DropFlagsKept s s.iterate := by
  obtain h | ⟨v, i, acc, -, -, -, -, -, h⟩ := iterate_cases s <;> rw [h] <;> exact .of_eq rfl rfl

/-- No completion, successful or failed, clears a flag of a dropped write. -/
theorem completionStep_dropFlagsKept (h : s.completionStep = .next t) : DropFlagsKept s t := by
  obtain ⟨-, rfl⟩ | ⟨-, ⟨w, rfl⟩ | ⟨e, rfl⟩⟩ := completionStep_ends h
  · exact .of_eq rfl rfl
  · exact .of_eq (apply_ovr s w) (apply_wign s w)
  · exact .of_eq rfl rfl

/-- R229, R230: what can clear a flag of a dropped write is a write of STATUS, or a reset. -/
theorem handle_dropFlags {e : Event} (h : s.handle e = .next t) :
    DropFlagsKept s t ∨
    (∃ addr off v, e = .write addr 4 v ∧ windowOffset s.build addr = some off ∧ targetOf off = .status ∧
      t = s.writeStatus v) ∨
    e = .assertReset := by
  obtain ⟨-, off, -, -, rfl⟩ | ⟨addr, off, v, rfl, ho, rfl⟩ | ⟨-, rfl⟩ | ⟨-, h⟩ | ⟨h, -⟩ | ⟨-, rfl⟩ := handle_cases h
  · exact .inl (.of_eq rfl rfl)
  · obtain h | ⟨hT, hw⟩ := writeOff_dropFlags s off v
    · exact .inl h
    · exact .inr (.inl ⟨addr, off, v, rfl, ho, hT, hw⟩)
  · split
    · exact .inl (.of_eq rfl rfl)
    · exact .inl (iterate_dropFlagsKept s)
  · exact .inl (completionStep_dropFlagsKept h)
  · exact .inr (.inr h)
  · exact .inl (.of_eq rfl rfl)

/-- R229, R230: a step that clears a flag of a dropped write is a W1C write of STATUS, or a reset. -/
theorem step_dropFlags (h : step s = .next t) :
    DropFlagsKept s t ∨
    (∃ addr v es, s.events = .write addr 4 v :: es ∧ (addr - s.build.base) / 4 * 4 = 0x008 ∧
      t.ovr = (s.ovr && !v.getLsbD 5) ∧ t.wign = (s.wign && !v.getLsbD 6)) ∨
    ∃ es, s.events = .assertReset :: es := by
  obtain ⟨-, h⟩ | ⟨e, es, hev, h⟩ := step_cases h
  · exact .inl (completionStep_dropFlagsKept h)
  · obtain ⟨ho, hw⟩ | ⟨addr, off, v, rfl, ho, hT, rfl⟩ | rfl := handle_dropFlags h
    · exact .inl ⟨ho, hw⟩
    · obtain ⟨hlt, haddr⟩ := windowOffset_lt ho
      obtain rfl : addr = s.build.base + off := haddr
      have hoff : off % 4096 / 4 = 2 := inStatus_of_targetOf hT
      exact .inr (.inl ⟨_, v, es, hev, by omega, rfl, rfl⟩)
    · exact .inr (.inr ⟨es, hev⟩)

/-! ### Dropped writes -/

theorem seq_ne_idle_of_busy (hq : s.seq = .busy v) : s.seq ≠ .idle := by simp [hq]

/-- Settles O22: the state the dropped write leaves, and by the steps that can clear OVR. -/
theorem overrunIsDroppedAndSticky : Obligations.OverrunIsDroppedAndSticky := by
  refine ⟨fun s u v es hr hq hev => ?_, fun s t h hs ht => ?_⟩
  · refine ⟨{ s.withEvents es with ovr := true }, ?_, hq, rfl, rfl⟩
    rw [step_writeCmd hr hev, writeCmd_ne_idle (s := s.withEvents es) (seq_ne_idle_of_busy hq)]
  · obtain ⟨ho, -⟩ | ⟨addr, v, es, hev, hoff, ho, -⟩ | hreset := step_dropFlags h
    · simp [ho hs] at ht
    · exact .inl ⟨addr, v, es, hev, hoff, by simpa [hs, ht] using ho⟩
    · exact .inr hreset

/-- Settles O23: by the rows of R68's table for a busy engine, and by the steps that can clear WIGN. -/
theorem operandWriteWhileBusyIsDroppedAndSticky : Obligations.OperandWriteWhileBusyIsDroppedAndSticky := by
  refine ⟨fun s u v off es hr hq hlt hev => ?_, fun s t h hs ht => ?_⟩
  · have hbusy := seq_ne_idle_of_busy hq
    obtain ⟨-, -, hstatus, hintctl, -, -, hinf, hoperand, hreadOnly, hinert⟩ :=
      writeEffectByTarget (s.withEvents es) off v hr hlt
    have leaves {t : State} (h : (s.withEvents es).writeOff off v = t) : step s = .next t :=
      (step_write hlt hev).trans (congrArg _ h)
    refine ⟨?_, fun h => leaves (hstatus h), fun h => leaves (hintctl h), ?_⟩
    · rintro (h | h | ⟨X, i, hi, hX, hw, h⟩)
      · exact leaves (hinf (.inl h) hbusy)
      · exact leaves (hinf (.inr h) hbusy)
      · exact leaves ((hoperand X i hi h hX hw).2 hbusy)
    · rintro (h | h | h | h | ⟨X, i, hi, hX, h⟩)
      · exact leaves (hinert (.inl h))
      · exact leaves (hinert (.inr (.inl h)))
      · exact leaves (hinert (by omega))
      · exact leaves (hinert (by omega))
      · exact leaves (hreadOnly X i hi h (.inl hX))
  · obtain ⟨-, hw⟩ | ⟨addr, v, es, hev, hoff, -, hw⟩ | hreset := step_dropFlags h
    · simp [hw hs] at ht
    · exact .inl ⟨addr, v, es, hev, hoff, by simpa [hs, ht] using hw⟩
    · exact .inr hreset

end Sys2Proof.Machine
end

