-- ==== Sys2Proof/Proofs/Completion.lean ====
section
/-! PROOFS. That every accepted command completes (R226) and an idle engine stays as it is (R240); which code a completion
reports (R224), and what a failed one leaves (R225). -/

namespace Sys2Proof.Machine

variable {s t : State} {v : Word} {i : Instr} {e : Event}

/-! ### The idle engine -/

/-- R240: with no command in flight there is no completion. -/
theorem completionStep_idle (h : s.seq = .idle) : s.completionStep = .next s := by
  have hnone : s.inFlight = none := by simp [State.inFlight, h]
  simp only [State.completionStep, hnone]

/-- Settles O6, by induction on the number of steps: each is a completion step with no command in flight. -/
theorem idleEngineHoldsItsState : Obligations.IdleEngineHoldsItsState := by
  intro s n hq hev
  induction n with
  | zero => rfl
  | succ n ih => exact (run_succ ((step_nil hev).trans (completionStep_idle hq)) n).trans ih

/-! ### Every step answers a next state -/

/-- R141: no word makes the completion step stop. -/
theorem completionStep_total (s : State) : ∃ t, s.completionStep = .next t := by
  cases hv : s.inFlight with
  | none => exact ⟨s, by simp [State.completionStep, hv]⟩
  | some v =>
    obtain ⟨hr, hq⟩ := inFlight_some hv
    cases hd : decode v with
    | illegal why => exact ⟨_, completionStep_illegal hr hq hd⟩
    | command i =>
      obtain ⟨r, hx⟩ := exec_is_finish i s
      rw [completionStep_command hr hq hd, hx]
      exact finish_total s r

/-- R60, R63: the port answers an access of 4 bytes in the window. -/
theorem access_total {addr size : Nat} (h : ((windowOffset s.build addr).isSome && size == 4) = true)
    (act : Nat → State) : ∃ t, s.access addr size act = .next t := by
  obtain ⟨hw, hs⟩ := Bool.and_eq_true_iff.mp h
  obtain ⟨off, ho⟩ := Option.isSome_iff_exists.mp hw
  exact ⟨act off, by simp [State.access, ho, beq_iff_eq.mp hs]⟩

theorem handle_total (h : e.meaningful s.build = true) : ∃ t, s.handle e = .next t := by
  cases e with
  | read addr size => exact access_total h _
  | write addr size v => exact access_total h _
  | complete => exact completionStep_total s
  | iterate | assertReset | releaseReset => exact ⟨_, rfl⟩

/-! ### The order of events shrinks -/

@[simp] theorem putBig_events (s : State) (X : BigName) (r : BigReg) : (s.putBig X r).events = s.events := by
  cases X <;> rfl

theorem WriteEffect.events (h : WriteEffect s v t) : t.events = s.events := by
  cases h with
  | operand _ X i => exact putBig_events s X _
  | ignored | status | intctl | overrun | dropped | accepted | pinf | qinf => rfl

theorem iterate_events (s : State) : s.iterate.events = s.events := by
  obtain h | ⟨v, i, acc, -, -, -, -, -, h⟩ := iterate_cases s <;> rw [h]

theorem completionStep_events (h : s.completionStep = .next t) : t.events = s.events := by
  obtain ⟨-, rfl⟩ | ⟨-, ⟨w, rfl⟩ | ⟨e, rfl⟩⟩ := completionStep_ends h
  · rfl
  · exact apply_events s w
  · rfl

/-- No event changes what is still to happen after it. -/
theorem handle_events (h : s.handle e = .next t) : t.events = s.events := by
  obtain ⟨-, off, -, -, rfl⟩ | ⟨-, off, v, -, -, rfl⟩ | ⟨-, rfl⟩ | ⟨-, h⟩ | ⟨-, rfl⟩ | ⟨-, rfl⟩ := handle_cases h
  · rfl
  · exact (writeOff_effect s off v).events
  · split
    · rfl
    · exact iterate_events s
  · exact completionStep_events h
  · rfl
  · rfl

/-! ### Liveness -/

/-- R226: an event short of reset completes the command in flight, or leaves it in flight. -/
theorem handle_completes_or_leaves (hr : s.rst = false) (hq : s.seq = .busy v) (hn : e.noReset = true)
    (h : s.handle e = .next t) :
    (t.seq = .idle ∧ t.done = true) ∨ (t.rst = false ∧ t.seq = .busy v ∧ t.build = s.build) := by
  by_cases hc : e = .complete
  · subst hc
    obtain ⟨hd, -, hidle⟩ := completionStep_done hr hq h
    exact .inl ⟨hidle, hd⟩
  · have ha : e ≠ .assertReset := by rintro rfl; simp [Event.noReset] at hn
    have ht : t = _ := handle_undisturbed hr hq hc ha h
    rw [ht]
    exact .inr ⟨hr, hq, rfl⟩

/-- Settles O25, by induction on the order of events: with none left the completion happens, and before that each event
completes the command or leaves it in flight with one event fewer. -/
theorem everyAcceptedCommandCompletes : Obligations.EveryAcceptedCommandCompletes := by
  intro s v hr hq hm
  induction hes : s.events generalizing s with
  | nil =>
    obtain ⟨t, ht⟩ := completionStep_total s
    obtain ⟨hd, -, hidle⟩ := completionStep_done hr hq ht
    exact ⟨1, t, by simp, run_succ ((step_nil hes).trans ht) 0, hidle, hd⟩
  | cons e es ih =>
    rw [hes] at hm
    obtain ⟨⟨he, hn⟩, hm⟩ := List.forall_mem_cons.mp hm
    obtain ⟨t, ht⟩ := handle_total (s := s.withEvents es) he
    have hstep : step s = .next t := (step_cons hes).trans ht
    obtain ⟨hidle, hd⟩ | ⟨hr', hq', hb⟩ := handle_completes_or_leaves (s := s.withEvents es) hr hq hn ht
    · exact ⟨1, t, by simp, run_succ hstep 0, hidle, hd⟩
    · have hev : t.events = es := handle_events ht
      have hb : t.build = s.build := hb
      obtain ⟨n, u, hle, hrun, hu⟩ := ih t hr' hq' (by rwa [hev, hb]) hev
      exact ⟨n + 1, u, by simpa using hle, (run_succ hstep n).trans hrun, hu⟩

/-! ### The code a completion reports -/

/-- R222 to R224: the code of the first check of the command that fails. -/
def failedCheck (i : Instr) (s : State) : ErrCode :=
  if operandsReduced i s = false then .range
  else if i = .finv ∧ uint s.px = 0 then .inv0
  else .none

theorem failedCheck_unreduced (h : ¬ operandsReduced i s = true) : failedCheck i s = .range :=
  if_pos (Bool.eq_false_of_not_eq_true h)

theorem failedCheck_reduced (h : operandsReduced i s = true) (hi : ¬ (i = .finv ∧ uint s.px = 0)) :
    failedCheck i s = .none := by
  simp [failedCheck, h, hi]

theorem failedCheck_finv_zero (h : operandsReduced .finv s = true) (h0 : uint s.px = 0) :
    failedCheck .finv s = .inv0 := by
  simp [failedCheck, h, h0]

/-- R222: a command that can fail on its range check alone, the condition `c`, reports RANGE or nothing. -/
theorem checked_errcode {c : Prop} [Decidable c] {r : Except ErrCode Commit} (hi : i ≠ .finv)
    (hx : exec i s = if c then s.finish r else .next (s.raiseError .range)) (hc : operandsReduced i s = true ↔ c)
    (hr : c → ∃ w, r = .ok w) (h : exec i s = .next t) : t.errcode = failedCheck i s := by
  rw [hx] at h
  by_cases hred : c
  · obtain ⟨w, rfl⟩ := hr hred
    rw [if_pos hred] at h
    cases h
    exact (failedCheck_reduced (hc.mpr hred) fun hf => hi hf.1).symm
  · rw [if_neg hred] at h
    cases h
    exact (failedCheck_unreduced (mt hc.mp hred)).symm

theorem point_commits {p : Nat} {r : Except ErrCode Point} (h : ∃ q, r = .ok q ∧ pointInRange p q = true) :
    ∃ w, r.map Commit.point = .ok w := by
  obtain ⟨q, rfl, -⟩ := h
  exact ⟨.point q, rfl⟩

theorem operandsReduced_finv (s : State) : operandsReduced .finv s = true ↔ uint s.px < s.build.curve.p :=
  decide_eq_true_iff

theorem fields_reduced_iff (s : State) :
    (inRange s.build.curve.p s.fieldA && inRange s.build.curve.p s.fieldB) = true ↔
      s.fieldA < s.build.curve.p ∧ s.fieldB < s.build.curve.p := by
  simp [inRange]

theorem AnswersChecked.errcode {n : Nat} (hx : AnswersChecked i s n) (hi : i ≠ .finv)
    (hc : operandsReduced i s = true ↔ s.fieldA < s.build.curve.p ∧ s.fieldB < s.build.curve.p)
    (h : exec i s = .next t) : t.errcode = failedCheck i s :=
  checked_errcode (r := .ok (.field n)) hi hx hc (fun _ => ⟨_, rfl⟩) h

/-- R114, R224: FINV reports RANGE before INV0. -/
theorem finv_errcode (hv : s.build.curve.Valid) (h : exec .finv s = .next t) : t.errcode = failedCheck .finv s := by
  obtain ⟨hpos, hzero, hrange⟩ := finvResult s hv
  by_cases hA : uint s.px < s.build.curve.p
  · have hred := (operandsReduced_finv s).mpr hA
    by_cases h0 : uint s.px = 0
    · rw [hzero h0] at h
      cases h
      exact (failedCheck_finv_zero hred h0).symm
    · obtain ⟨u, hu, -, -, -, -, hfields⟩ := hpos (Nat.pos_of_ne_zero h0) hA
      rw [hu] at h
      cases h
      rw [hfields]
      exact (failedCheck_reduced hred fun hf => h0 hf.2).symm
  · rw [hrange (not_lt.mp hA)] at h
    cases h
    exact (failedCheck_unreduced (mt (operandsReduced_finv s).mp hA)).symm

/-- R224: in a state of the invariant a command reports the first of its checks that fails. -/
theorem exec_errcode (hi : Inv s) (h : exec i s = .next t) : t.errcode = failedCheck i s := by
  have hv := hi.build.curve
  cases i with
  | padd =>
    exact checked_errcode nofun (execPadd_eq s) Bool.and_eq_true_iff
      (fun ⟨hP, hQ⟩ => point_commits (padd_total hv hP hQ)) h
  | pdbl => exact checked_errcode nofun (execPdbl_eq s) Iff.rfl (fun hP => point_commits (pdbl_total hv hP)) h
  | pneg => exact checked_errcode (r := .ok (.point _)) nofun (execPneg_eq s) Iff.rfl (fun _ => ⟨_, rfl⟩) h
  | psmul =>
    exact checked_errcode nofun (execPsmul_eq s) Iff.rfl
      (fun hP => point_commits (psmulFrom_total hv hP _ _ (loopState_reduced hi))) h
  | peq =>
    exact checked_errcode (r := .ok (.equal _)) nofun (execPeq_eq s) Bool.and_eq_true_iff (fun _ => ⟨_, rfl⟩) h
  | fadd => exact AnswersChecked.errcode (execFadd_eq s) nofun (fields_reduced_iff s) h
  | fsub => exact AnswersChecked.errcode (execFsub_eq s) nofun (fields_reduced_iff s) h
  | fmul => exact AnswersChecked.errcode (execFmul_eq s) nofun (fields_reduced_iff s) h
  | fmont => exact AnswersChecked.errcode (execFmont_eq s) nofun (fields_reduced_iff s) h
  | finv => exact finv_errcode hv h

/-- Settles O41: ILLEGAL before any command runs, and the command's own first failed check after that. -/
theorem errorCodePrecedence : Obligations.ErrorCodePrecedence := by
  intro s t v hi hr hq h
  cases hd : decode v with
  | illegal why =>
    rw [completionStep_illegal hr hq hd] at h
    cases h
    rfl
  | command i => exact exec_errcode hi ((completionStep_command hr hq hd).symm.trans h)

/-! ### A failed command -/

/-- R14: a completion that reports a code raised that error, and nothing else. -/
theorem completionStep_failed (hr : s.rst = false) (hq : s.seq = .busy v) (h : s.completionStep = .next t)
    (he : t.errcode ≠ .none) : t = s.raiseError t.errcode := by
  obtain ⟨hn, -⟩ | ⟨-, ⟨w, rfl⟩ | ⟨e, rfl⟩⟩ := completionStep_ends h
  · simp [inFlight_busy hr hq] at hn
  · exact absurd rfl he
  · rfl

/-- Settles O42: the completion raised an error, which leaves the window outside STATUS, and an idle sequencer. -/
theorem failedCommandWritesOnlyStatus : Obligations.FailedCommandWritesOnlyStatus := by
  intro s t v hr hq h he
  have ht := completionStep_failed hr hq h he
  have hidle : t.seq = .idle := congrArg State.seq ht
  have hreleased : t.rst = false := (congrArg State.rst ht).trans hr
  refine ⟨ht, fun off hoff => ?_, fun w es hev => ⟨(t.withEvents es).accept w, ?_, rfl⟩⟩
  · rw [ht]
    exact readByte_raiseError s _ hoff
  · rw [step_writeCmd hreleased hev, writeCmd_idle (s := t.withEvents es) hidle]

end Sys2Proof.Machine
end

