-- ==== Sys2Proof/Proofs/Reset.lean ====
section
/-! PROOFS. Reset (R250 to R252): what the port and the sequencer do while `rst` is asserted, and the reset values that
each step keeps until it is released. -/

namespace Sys2Proof.Machine

variable {s t : State} {b : Build}

/-! ### With `rst` asserted -/

theorem readOff_asserted (h : s.rst = true) (off : Nat) : s.readOff off = 0#32 := if_pos h

theorem writeOff_asserted (h : s.rst = true) (off : Nat) (v : Word) : s.writeOff off v = s := if_pos h

/-- R250: the sequencer takes no step. -/
theorem completionStep_asserted (h : s.rst = true) : s.completionStep = .next s := by
  have hn : s.inFlight = none := if_pos h
  rw [State.completionStep, hn]

/-- Settles O30: the read of an engine in reset is 0, and its write leaves it as it is. -/
theorem portDuringReset : Obligations.PortDuringReset := by
  intro s off v es hr ho
  refine ⟨fun hev => ?_, fun hev => ?_⟩
  · rw [step_read ho hev, readOff_asserted hr]
  · rw [step_write ho hev, writeOff_asserted (s := s.withEvents es) hr]
    rfl

/-! ### The reset values -/

/-- The engine of build `b` has its reset values (R48); the level of `rst` and the host's side are left open. -/
def HasResetValues (b : Build) (s : State) : Prop :=
  s = { State.resetOf b with rst := s.rst, response := s.response, events := s.events }

theorem HasResetValues.withInputs (h : HasResetValues b s) (rst : Bool) (response : Option Word) (events : List Event) :
    HasResetValues b { s with rst, response, events } := by
  have hu := congrArg (fun u : State => { u with rst, response, events }) h
  exact hu

theorem assertReset_hasResetValues (s : State) : HasResetValues s.build s.assertReset := rfl

/-- R250: the invariant holds the reset values while `rst` is asserted. -/
theorem Inv.hasResetValues (hi : Inv s) (hr : s.rst = true) : HasResetValues s.build s := by
  have h : s = { State.resetOf s.build with rst := true, response := s.response, events := s.events } := hi.reset hr
  rwa [← hr] at h

/-- R250: in reset an event can change the answer to a read, or `rst` itself, and nothing else. -/
theorem handle_keepsResetValues {e : Event} (hi : Inv s) (hr : s.rst = true) (h : s.handle e = .next t) :
    HasResetValues s.build t ∧ (t.rst = false → e = .releaseReset) := by
  have hv := hi.hasResetValues hr
  have hkept : s.rst = false → e = .releaseReset := fun hf => by simp [hr] at hf
  obtain ⟨-, off, -, -, rfl⟩ | ⟨-, off, v, -, -, rfl⟩ | ⟨-, rfl⟩ | ⟨-, hc⟩ | ⟨-, rfl⟩ | ⟨he, rfl⟩ := handle_cases h
  · exact ⟨hv.withInputs _ _ _, hkept⟩
  · rw [writeOff_asserted hr]
    exact ⟨hv, hkept⟩
  · rw [if_pos hr]
    exact ⟨hv, hkept⟩
  · rw [completionStep_asserted hr] at hc
    cases hc
    exact ⟨hv, hkept⟩
  · exact ⟨assertReset_hasResetValues s, nofun⟩
  · exact ⟨hv.withInputs _ _ _, fun _ => he⟩

/-- Settles O29: by the state that asserting `rst` leaves, and by what the first event can do while it is asserted. -/
theorem resetTakesAndHoldsTheResetValues : Obligations.ResetTakesAndHoldsTheResetValues := by
  refine ⟨fun s es hev => ⟨(s.withEvents es).assertReset, step_cons hev, ?_, rfl, rfl, rfl⟩, fun s t hi hr h => ?_⟩
  · simp [State.irq]
  · obtain ⟨-, hc⟩ | ⟨e, es, hev, he⟩ := step_cases h
    · rw [completionStep_asserted hr] at hc
      cases hc
      exact ⟨hi.hasResetValues hr, fun hf => by simp [hr] at hf⟩
    · obtain ⟨hv, hrel⟩ := handle_keepsResetValues (hi.withHostSide s.response es) hr he
      exact ⟨hv, fun hf => ⟨es, by rw [hev, hrel hf]⟩⟩

end Sys2Proof.Machine
end
